-- ==== Sys2Proof/Word.lean ====
section
/-! DEFINITION. The word types of the core, at the widths the spec fixes (00_scope.md R6, R8). -/

namespace Sys2Proof

/-- A byte: a general register, a timer, a memory cell, an immediate `kk` (R6, R20, R28). -/
abbrev Byte := BitVec 8

/-- A 16-bit word: the instruction word, `pc`, `I`, a stack entry (R24, R26, R29, R80). -/
abbrev Word := BitVec 16

/-- A 4-bit field of an instruction word (R81). -/
abbrev Nibble := BitVec 4

/-- The 12-bit address literal `nnn` (R81, R83). -/
abbrev Addr12 := BitVec 12

/-- The number of a general register, `V0` to `VF` (R20, R23, R84). -/
abbrev Reg := Fin 16

/-- The number of a key of the panel (R30). -/
abbrev Key := Fin 16

end Sys2Proof
end

