-- ==== Sys2Proof/Config.lean ====
section
/-! DEFINITION. The sizes the spec fixes (00_scope.md R6), and the free values: opaque constants of which
nothing can be proved, one for each value the spec leaves open after which the machine goes on. -/

namespace Sys2Proof

/-- `MEMSIZE`: bytes of memory (R6, R28). -/
@[reducible, simp] def Config.memSize : Nat := 4096

/-- `START`: the program start address and the reset value of `pc` (R6, R24). -/
@[reducible, simp] def Config.start : Nat := 0x200

/-- `STACKDEPTH`: the capacity of the call stack (R6, R29). -/
@[reducible, simp] def Config.stackDepth : Nat := 16

/-- `FONTLEN`: the bytes of the built-in font, from address 0 (R6, R32). -/
@[reducible, simp] def Config.fontLen : Nat := 80

/-- `MAXIMAGE`: the longest program image, 4096 − 0x200 bytes (R6, R223). -/
@[reducible, simp] def Config.maxImage : Nat := 3584

/-- `Draw8()` of R165: the byte the `k`-th draw of a run yields. A FREE VALUE (log entry 1): the spec names
no generator, so no body is given and a claim holds for every sequence of bytes. -/
opaque Config.draw8 : Nat → Byte

/-- The contents of a core whose fault record has just been set: every piece of state but that record
(R246 clause (c)). -/
structure Config.Residue where
  V : Vector Byte 16
  pc : Word
  I : Word
  DT : Byte
  ST : Byte
  mem : Vector Byte 4096
  stack : List Word
  keys : Vector Bool 16
  fb : Vector (Vector Bool 64) 32
deriving DecidableEq, Repr, Inhabited

/-- What the rest of the state holds after the `k`-th free value is taken by a fault. A FREE VALUE
(log entry 2): R246 says nothing may be assumed of any state but the record. -/
opaque Config.residue : Nat → Config.Residue

end Sys2Proof
end

