-- ==== Sys2Proof/Machine/State.lean ====
section
/-! DEFINITION. The state of the core as plain data (10_state.md R19), the reasons a step can stop, and reset. -/

namespace Sys2Proof.Machine

/-- The fault record of R33 and R242: the constructor is the cause (R240), `fpc` the value `pc` had when the
command began and `fiw` the instruction word (0 when none was fetched). -/
inductive Fault where
  /-- Code 1. Raised by LOAD of more than 3584 bytes (R223); `fpc` and `fiw` are 0. Safe: the spec's own fault. -/
  | loadOverflow
  /-- Code 2. Raised by `2nnn` with 16 return addresses pending (R130, R134). Safe: the spec's own fault. -/
  | stackOverflow (fpc fiw : Word)
  /-- Code 3. Raised by `00EE` with no return address pending (R131, R132). Safe: the spec's own fault. -/
  | stackUnderflow (fpc fiw : Word)
  /-- Code 4. Raised by the fetch (R111), `Dxyn`, `Fx33`, `Fx55`, `Fx65` (R52) and by `Ex9E`, `ExA1` with a key
  number above 15 (R200, R201). Safe: the spec's own fault. -/
  | outOfRange (fpc fiw : Word)
  /-- Code 5. Raised by dispatch of a word that matches no pattern (R88, R115). Safe: the spec's own fault. -/
  | invalidOpcode (fpc fiw : Word)
deriving DecidableEq, Repr

/-- Why the model has no answer. -/
inductive Refusal where
  /-- Raised by `exec` for an instruction that has no meaning yet, named as the opcode table names it. Safe. No arm
  of this model raises it. -/
  | notModelled (mnemonic : String)
deriving DecidableEq, Repr

/-- The framebuffer: 32 rows of 64 cells, row 0 at the top, column 0 at the left (R31). -/
abbrev Screen := Vector (Vector Bool 64) 32

/-- The whole state of the core (R19), and two fields of the model's own, `font` and `free`. -/
structure State where
  /-- General registers `V0` to `VF` (R20, R21). -/
  V : Vector Byte 16
  /-- Program counter (R24). -/
  pc : Word
  /-- Index register (R26). -/
  I : Word
  /-- Delay timer (R27). -/
  DT : Byte
  /-- Sound timer (R27). -/
  ST : Byte
  /-- Memory (R28): the cells that differ from what an unlisted address reads as, addresses rising. -/
  mem : List Host.Cell
  /-- Call stack (R29): the pending return addresses, oldest first; `sp` is the length. -/
  stack : List Word
  /-- Key latches (R30), `true` for pressed. -/
  keys : Vector Bool 16
  /-- Framebuffer (R31), `true` for lit. -/
  fb : Screen
  /-- Fault record (R33). -/
  fault : Option Fault
  /-- The MODEL's own: the parameter `FONT` of R7 (a), the reset contents of `mem[0..79]`. No command writes it. -/
  font : Vector Byte 80
  /-- The MODEL's own: how many free values have been taken (log entries 1 and 2). -/
  free : Nat
deriving DecidableEq, Repr

/-- What RESET constructs (R35, R222), for a given `FONT` and count of free values taken. -/
def State.resetWith (font : Vector Byte 80) (free : Nat) : State where
  V := Vector.replicate 16 0
  pc := 0x200
  I := 0
  DT := 0
  ST := 0
  mem := []
  stack := []
  keys := Vector.replicate 16 false
  fb := Vector.replicate 32 (Vector.replicate 64 false)
  fault := none
  font := font
  free := free

/-- The machine right after reset (R35, R271), with the default font (log entry 3). -/
def State.reset : State := State.resetWith defaultFont 0

end Sys2Proof.Machine
end

