-- ==== Sys2Proof/Machine/Flags.lean ====
section
/-! DEFINITION. Every value an instruction leaves in `VF` (10_state.md R21), as the byte 1 or 0. -/

namespace Sys2Proof.Machine

/-- A flag as a register value. -/
def flagByte (b : Bool) : Byte := if b then 1 else 0

/-- Carry of `8xy4`: 1 exactly when `p + q ≥ 256` (R150, R158). -/
def carryFlag (p q : Byte) : Byte := flagByte (decide (p.toNat + q.toNat ≥ 256))

/-- No borrow of `8xy5`: 1 exactly when `p ≥ q` (R159). -/
def noBorrowFlag (p q : Byte) : Byte := flagByte (decide (p.toNat ≥ q.toNat))

/-- The flag of `8xy7`: 1 exactly when `vy > vx`, strictly (R161). -/
def greaterFlag (vy vx : Byte) : Byte := flagByte (decide (vy.toNat > vx.toNat))

/-- The bit `8xy6` shifts out: bit 0 of the old value (R160). -/
def lowBitFlag (p : Byte) : Byte := flagByte (p.getLsbD 0)

/-- The bit `8xyE` shifts out: bit 7 of the old value (R162). -/
def highBitFlag (p : Byte) : Byte := flagByte (p.getLsbD 7)

end Sys2Proof.Machine
end

