-- ==== Sys2Proof/Machine/Memory.lean ====
section
/-! DEFINITION. Memory as a list of (address, byte) cells in one canonical form: addresses strictly rising, all
below 4096, and no cell equal to what an unlisted address reads as (10_state.md R28; 20_memory.md R50). -/

namespace Sys2Proof.Machine

/-- What an address that no cell lists reads as: the reset contents, `FONT` in bytes 0..79 and 0 elsewhere (R28, R35). -/
def unlistedByte (font : Vector Byte 80) (a : Nat) : Byte :=
  if h : a < 80 then font[a] else 0

/-- The byte the list holds for an address, if it lists one. -/
def Memory.lookup : List Host.Cell → Nat → Option Byte
  | [], _ => none
  | (c, v) :: m, a => if a = c then some v else Memory.lookup m a

/-- The byte at an address: the last value written to it, or its reset contents (R55). -/
def Memory.read (font : Vector Byte 80) (m : List Host.Cell) (a : Nat) : Byte :=
  (Memory.lookup m a).getD (unlistedByte font a)

/-- Remove an address from the list. -/
def Memory.erase : List Host.Cell → Nat → List Host.Cell
  | [], _ => []
  | (c, v) :: m, a => if a = c then Memory.erase m a else (c, v) :: Memory.erase m a

/-- Put a cell at its place in the list, in place of the one it holds for that address. -/
def Memory.insert : List Host.Cell → Nat → Byte → List Host.Cell
  | [], a, b => [(a, b)]
  | (c, v) :: m, a, b =>
    if a < c then (a, b) :: (c, v) :: m else if a = c then (a, b) :: m else (c, v) :: Memory.insert m a b

/-- Store one byte, keeping the canonical form: the value an unlisted address reads as is stored by unlisting it. -/
def Memory.write (font : Vector Byte 80) (m : List Host.Cell) (a : Nat) (b : Byte) : List Host.Cell :=
  if b = unlistedByte font a then Memory.erase m a else Memory.insert m a b

/-- The canonical form. -/
def Memory.wf (font : Vector Byte 80) (m : List Host.Cell) : Bool :=
  decide (m.Pairwise fun c d => c.1 < d.1) && m.all fun c => decide (c.1 < Config.memSize) && c.2 != unlistedByte font c.1

/-- The canonical list of 4096 given bytes. -/
def Memory.ofBytes (font : Vector Byte 80) (bytes : Vector Byte 4096) : List Host.Cell :=
  (List.finRange 4096).filterMap fun a =>
    if bytes[a] = unlistedByte font a.val then none else some (a.val, bytes[a])

end Sys2Proof.Machine
end

