-- ==== Sys2Proof/Syntax.lean ====
section
/-! DEFINITION. The instruction set: one constructor for each row of spec/opcode_table.json (30_encoding.md
R86), in the table's order. Operands are held at the width of their field (R82 to R84), so no term of `Instr`
has an operand out of range. -/

namespace Sys2Proof

/-- The 34 instructions (R86). Each constructor names its pattern and the rule that defines it. -/
inductive Instr where
  /-- `00E0`, clear the framebuffer (R190). -/
  | cls
  /-- `00EE`, return from subroutine (R132). -/
  | ret
  /-- `1nnn`, jump (R133). -/
  | jp (nnn : Addr12)
  /-- `2nnn`, call subroutine (R134). -/
  | call (nnn : Addr12)
  /-- `3xkk`, skip if register equals immediate (R135). -/
  | seImm (x : Reg) (kk : Byte)
  /-- `4xkk`, skip if register differs from immediate (R136). -/
  | sneImm (x : Reg) (kk : Byte)
  /-- `5xy0`, skip if registers equal (R137). -/
  | seReg (x y : Reg)
  /-- `6xkk`, load immediate (R152). -/
  | ldImm (x : Reg) (kk : Byte)
  /-- `7xkk`, add immediate (R153). -/
  | addImm (x : Reg) (kk : Byte)
  /-- `8xy0`, copy register (R154). -/
  | ldReg (x y : Reg)
  /-- `8xy1`, bitwise OR (R155). -/
  | orReg (x y : Reg)
  /-- `8xy2`, bitwise AND (R156). -/
  | andReg (x y : Reg)
  /-- `8xy3`, bitwise exclusive OR (R157). -/
  | xorReg (x y : Reg)
  /-- `8xy4`, add with carry out (R158). -/
  | addReg (x y : Reg)
  /-- `8xy5`, subtract (R159). -/
  | subReg (x y : Reg)
  /-- `8xy6`, shift right by one; `y` is carried and not used (R160). -/
  | shr (x y : Reg)
  /-- `8xy7`, reverse subtract (R161). -/
  | subnReg (x y : Reg)
  /-- `8xyE`, shift left by one; `y` is carried and not used (R162). -/
  | shl (x y : Reg)
  /-- `9xy0`, skip if registers differ (R138). -/
  | sneReg (x y : Reg)
  /-- `Annn`, load index (R170). -/
  | ldI (nnn : Addr12)
  /-- `Bnnn`, jump with offset `V0` (R139). -/
  | jpV0 (nnn : Addr12)
  /-- `Cxkk`, random (R163). -/
  | rnd (x : Reg) (kk : Byte)
  /-- `Dxyn`, draw sprite (R191). -/
  | drw (x y : Reg) (n : Nibble)
  /-- `Ex9E`, skip if key pressed (R200). -/
  | skp (x : Reg)
  /-- `ExA1`, skip if key not pressed (R201). -/
  | sknp (x : Reg)
  /-- `Fx07`, read delay timer (R203). -/
  | ldVxDT (x : Reg)
  /-- `Fx0A`, wait for a key (R202). -/
  | ldVxK (x : Reg)
  /-- `Fx15`, set delay timer (R204). -/
  | ldDTVx (x : Reg)
  /-- `Fx18`, set sound timer (R205). -/
  | ldSTVx (x : Reg)
  /-- `Fx1E`, add register to index (R171). -/
  | addI (x : Reg)
  /-- `Fx29`, address of font glyph (R172). -/
  | ldF (x : Reg)
  /-- `Fx33`, store decimal digits (R173). -/
  | ldB (x : Reg)
  /-- `Fx55`, store registers `V0..Vx` (R174). -/
  | storeRegs (x : Reg)
  /-- `Fx65`, load registers `V0..Vx` (R175). -/
  | loadRegs (x : Reg)
deriving DecidableEq, Repr

end Sys2Proof
end

