-- ==== Sys2Proof/WellFormed.lean ====
section
/-! DEFINITION. Which instruction words are well formed: those that are an instance of a row of the opcode map
(30_encoding.md R82, R86, R88). The table stands here a second time, as masks and matches, and independently of
the decoder, which examines nibbles (R87): that the two agree is a statement, not a definition.
A term of `Instr` needs no check of its own: every operand field is as wide as its field in the word and
every value of a variable field is legal (R83, R84, R89). -/

namespace Sys2Proof

/-- One row of the opcode map: a word is an instance of it exactly when `iw & mask = matchBits` (R82). -/
structure OpcodeRow where
  pattern : String
  matchBits : Word
  mask : Word
deriving DecidableEq, Repr

/-- R82: "An instruction word `iw` is an instance of a pattern exactly when `iw & mask = match`". -/
def OpcodeRow.admits (r : OpcodeRow) (iw : Word) : Bool := iw &&& r.mask == r.matchBits

/-- The row of R86 each instruction stands for. -/
def Instr.row : Instr → OpcodeRow
  | .cls => ⟨"00E0", 0x00E0, 0xFFFF⟩
  | .ret => ⟨"00EE", 0x00EE, 0xFFFF⟩
  | .jp _ => ⟨"1nnn", 0x1000, 0xF000⟩
  | .call _ => ⟨"2nnn", 0x2000, 0xF000⟩
  | .seImm _ _ => ⟨"3xkk", 0x3000, 0xF000⟩
  | .sneImm _ _ => ⟨"4xkk", 0x4000, 0xF000⟩
  | .seReg _ _ => ⟨"5xy0", 0x5000, 0xF00F⟩
  | .ldImm _ _ => ⟨"6xkk", 0x6000, 0xF000⟩
  | .addImm _ _ => ⟨"7xkk", 0x7000, 0xF000⟩
  | .ldReg _ _ => ⟨"8xy0", 0x8000, 0xF00F⟩
  | .orReg _ _ => ⟨"8xy1", 0x8001, 0xF00F⟩
  | .andReg _ _ => ⟨"8xy2", 0x8002, 0xF00F⟩
  | .xorReg _ _ => ⟨"8xy3", 0x8003, 0xF00F⟩
  | .addReg _ _ => ⟨"8xy4", 0x8004, 0xF00F⟩
  | .subReg _ _ => ⟨"8xy5", 0x8005, 0xF00F⟩
  | .shr _ _ => ⟨"8xy6", 0x8006, 0xF00F⟩
  | .subnReg _ _ => ⟨"8xy7", 0x8007, 0xF00F⟩
  | .shl _ _ => ⟨"8xyE", 0x800E, 0xF00F⟩
  | .sneReg _ _ => ⟨"9xy0", 0x9000, 0xF00F⟩
  | .ldI _ => ⟨"Annn", 0xA000, 0xF000⟩
  | .jpV0 _ => ⟨"Bnnn", 0xB000, 0xF000⟩
  | .rnd _ _ => ⟨"Cxkk", 0xC000, 0xF000⟩
  | .drw _ _ _ => ⟨"Dxyn", 0xD000, 0xF000⟩
  | .skp _ => ⟨"Ex9E", 0xE09E, 0xF0FF⟩
  | .sknp _ => ⟨"ExA1", 0xE0A1, 0xF0FF⟩
  | .ldVxDT _ => ⟨"Fx07", 0xF007, 0xF0FF⟩
  | .ldVxK _ => ⟨"Fx0A", 0xF00A, 0xF0FF⟩
  | .ldDTVx _ => ⟨"Fx15", 0xF015, 0xF0FF⟩
  | .ldSTVx _ => ⟨"Fx18", 0xF018, 0xF0FF⟩
  | .addI _ => ⟨"Fx1E", 0xF01E, 0xF0FF⟩
  | .ldF _ => ⟨"Fx29", 0xF029, 0xF0FF⟩
  | .ldB _ => ⟨"Fx33", 0xF033, 0xF0FF⟩
  | .storeRegs _ => ⟨"Fx55", 0xF055, 0xF0FF⟩
  | .loadRegs _ => ⟨"Fx65", 0xF065, 0xF0FF⟩

/-- The 34 rows of R86, in the source's order. -/
def opcodeRows : List OpcodeRow :=
  [Instr.cls, .ret, .jp 0, .call 0, .seImm 0 0, .sneImm 0 0, .seReg 0 0, .ldImm 0 0, .addImm 0 0].map Instr.row
  ++ [Instr.ldReg 0 0, .orReg 0 0, .andReg 0 0, .xorReg 0 0, .addReg 0 0, .subReg 0 0, .shr 0 0, .subnReg 0 0,
    .shl 0 0].map Instr.row
  ++ [Instr.sneReg 0 0, .ldI 0, .jpV0 0, .rnd 0 0, .drw 0 0 0, .skp 0, .sknp 0].map Instr.row
  ++ [Instr.ldVxDT 0, .ldVxK 0, .ldDTVx 0, .ldSTVx 0, .addI 0, .ldF 0, .ldB 0, .storeRegs 0, .loadRegs 0].map Instr.row

/-- A word is well formed when some row admits it; every other word is invalid (R88). -/
def wordWellFormed (iw : Word) : Bool := opcodeRows.any (·.admits iw)

end Sys2Proof
end

