-- ==== Sys2Proof/Decode.lean ====
section
/-! DEFINITION. The decoder (30_encoding.md R80, R81, R87; 40_fetch_decode_dispatch.md R113, R114) and the encoder
written from the same tables. Decoding is a pure function of the 16 bits and total: a word that no pattern matches
is rejected by name, with the word (R85, R88, R115). -/

namespace Sys2Proof

/-- Why a sequence of bytes is not an instruction. -/
inductive Reject where
  /-- Fewer than the two bytes every instruction occupies (R80). -/
  | truncated
  /-- A word that matches no row of the opcode map (R88). -/
  | invalidWord (iw : Word)
deriving DecidableEq, Repr

/-- The register a 4-bit selector names (R84). -/
def regOf (f : Nibble) : Reg := f.toFin

/-- The 4-bit selector of a register (R84). -/
def regBits (x : Reg) : Nibble := BitVec.ofFin x

/-- `d1 = iw[15:12]` (R81). -/
def fieldD1 (iw : Word) : Nibble := iw.extractLsb' 12 4

/-- `d2 = x = iw[11:8]` (R81), as a register selector. -/
def fieldX (iw : Word) : Reg := regOf (iw.extractLsb' 8 4)

/-- `d3 = y = iw[7:4]` (R81), as a register selector. -/
def fieldY (iw : Word) : Reg := regOf (iw.extractLsb' 4 4)

/-- `d4 = n = iw[3:0]` (R81). -/
def fieldN (iw : Word) : Nibble := iw.extractLsb' 0 4

/-- `kk = iw[7:0]` (R81). -/
def fieldKK (iw : Word) : Byte := iw.extractLsb' 0 8

/-- `nnn = iw[11:0]` (R81). -/
def fieldNNN (iw : Word) : Addr12 := iw.extractLsb' 0 12

/-- Family `d1 = 0`: the whole word is fixed (R87). -/
def decodeFamily0 (iw : Word) : Except Reject Instr :=
  if iw = 0x00E0 then .ok .cls else if iw = 0x00EE then .ok .ret else .error (.invalidWord iw)

/-- Family `d1 = 8`: `d4` selects the operation (R87). -/
def decodeFamily8 (iw : Word) : Except Reject Instr :=
  let x := fieldX iw
  let y := fieldY iw
  match fieldN iw with
  | 0x0#4 => .ok (.ldReg x y)
  | 0x1#4 => .ok (.orReg x y)
  | 0x2#4 => .ok (.andReg x y)
  | 0x3#4 => .ok (.xorReg x y)
  | 0x4#4 => .ok (.addReg x y)
  | 0x5#4 => .ok (.subReg x y)
  | 0x6#4 => .ok (.shr x y)
  | 0x7#4 => .ok (.subnReg x y)
  | 0xE#4 => .ok (.shl x y)
  | _ => .error (.invalidWord iw)

/-- Family `d1 = E`: `kk` selects the operation (R87). -/
def decodeFamilyE (iw : Word) : Except Reject Instr :=
  match fieldKK iw with
  | 0x9E#8 => .ok (.skp (fieldX iw))
  | 0xA1#8 => .ok (.sknp (fieldX iw))
  | _ => .error (.invalidWord iw)

/-- Family `d1 = F`: `kk` selects the operation (R87). -/
def decodeFamilyF (iw : Word) : Except Reject Instr :=
  let x := fieldX iw
  match fieldKK iw with
  | 0x07#8 => .ok (.ldVxDT x)
  | 0x0A#8 => .ok (.ldVxK x)
  | 0x15#8 => .ok (.ldDTVx x)
  | 0x18#8 => .ok (.ldSTVx x)
  | 0x1E#8 => .ok (.addI x)
  | 0x29#8 => .ok (.ldF x)
  | 0x33#8 => .ok (.ldB x)
  | 0x55#8 => .ok (.storeRegs x)
  | 0x65#8 => .ok (.loadRegs x)
  | _ => .error (.invalidWord iw)

/-- Decode and dispatch of one instruction word (R87, R113, R114). -/
def decodeWord (iw : Word) : Except Reject Instr :=
  let x := fieldX iw
  let y := fieldY iw
  let n := fieldN iw
  let kk := fieldKK iw
  let nnn := fieldNNN iw
  match fieldD1 iw with
  | 0x0#4 => decodeFamily0 iw
  | 0x1#4 => .ok (.jp nnn)
  | 0x2#4 => .ok (.call nnn)
  | 0x3#4 => .ok (.seImm x kk)
  | 0x4#4 => .ok (.sneImm x kk)
  | 0x5#4 => if n = 0 then .ok (.seReg x y) else .error (.invalidWord iw)
  | 0x6#4 => .ok (.ldImm x kk)
  | 0x7#4 => .ok (.addImm x kk)
  | 0x8#4 => decodeFamily8 iw
  | 0x9#4 => if n = 0 then .ok (.sneReg x y) else .error (.invalidWord iw)
  | 0xA#4 => .ok (.ldI nnn)
  | 0xB#4 => .ok (.jpV0 nnn)
  | 0xC#4 => .ok (.rnd x kk)
  | 0xD#4 => .ok (.drw x y n)
  | 0xE#4 => decodeFamilyE iw
  | _ => decodeFamilyF iw

/-- The instruction word two bytes make: big-endian, the byte at the lower address is bits 15..8 (R53). -/
def wordOfBytes (hi lo : Byte) : Word := hi ++ lo

/-- Decode from the bytes of memory in address order: one instruction and the bytes after it (R80). -/
def decodeBytes : List Byte → Except Reject (Instr × List Byte)
  | hi :: lo :: rest =>
    match decodeWord (wordOfBytes hi lo) with
    | .ok i => .ok (i, rest)
    | .error r => .error r
  | _ => .error .truncated

/-- The two bytes of an instruction word in address order, high byte first (R53, R80). -/
def bytesOfWord (iw : Word) : List Byte := [iw.extractLsb' 8 8, iw.extractLsb' 0 8]

/-- Format `NNN` (R82): `d1 ++ nnn`. -/
def encodeNNN (d1 : Nibble) (nnn : Addr12) : Word := d1 ++ nnn

/-- Formats `XKK` and `X` (R82): `d1 ++ x ++ kk`. -/
def encodeXKK (d1 : Nibble) (x : Reg) (kk : Byte) : Word := d1 ++ regBits x ++ kk

/-- Formats `XY` and `XYN` (R82): `d1 ++ x ++ y ++ d4`. -/
def encodeXYN (d1 : Nibble) (x y : Reg) (d4 : Nibble) : Word := d1 ++ regBits x ++ regBits y ++ d4

/-- The word of an instruction (R82, R86). -/
def encode : Instr → Word
  | .cls => 0x00E0
  | .ret => 0x00EE
  | .jp nnn => encodeNNN 0x1 nnn
  | .call nnn => encodeNNN 0x2 nnn
  | .seImm x kk => encodeXKK 0x3 x kk
  | .sneImm x kk => encodeXKK 0x4 x kk
  | .seReg x y => encodeXYN 0x5 x y 0x0
  | .ldImm x kk => encodeXKK 0x6 x kk
  | .addImm x kk => encodeXKK 0x7 x kk
  | .ldReg x y => encodeXYN 0x8 x y 0x0
  | .orReg x y => encodeXYN 0x8 x y 0x1
  | .andReg x y => encodeXYN 0x8 x y 0x2
  | .xorReg x y => encodeXYN 0x8 x y 0x3
  | .addReg x y => encodeXYN 0x8 x y 0x4
  | .subReg x y => encodeXYN 0x8 x y 0x5
  | .shr x y => encodeXYN 0x8 x y 0x6
  | .subnReg x y => encodeXYN 0x8 x y 0x7
  | .shl x y => encodeXYN 0x8 x y 0xE
  | .sneReg x y => encodeXYN 0x9 x y 0x0
  | .ldI nnn => encodeNNN 0xA nnn
  | .jpV0 nnn => encodeNNN 0xB nnn
  | .rnd x kk => encodeXKK 0xC x kk
  | .drw x y n => encodeXYN 0xD x y n
  | .skp x => encodeXKK 0xE x 0x9E
  | .sknp x => encodeXKK 0xE x 0xA1
  | .ldVxDT x => encodeXKK 0xF x 0x07
  | .ldVxK x => encodeXKK 0xF x 0x0A
  | .ldDTVx x => encodeXKK 0xF x 0x15
  | .ldSTVx x => encodeXKK 0xF x 0x18
  | .addI x => encodeXKK 0xF x 0x1E
  | .ldF x => encodeXKK 0xF x 0x29
  | .ldB x => encodeXKK 0xF x 0x33
  | .storeRegs x => encodeXKK 0xF x 0x55
  | .loadRegs x => encodeXKK 0xF x 0x65

/-- The instruction the decoder reads from a word given as the opcode table numbers its bits: the table's rows are
16 bits, bit 0 the least significant bit of the instruction word; the bits above `nbits` are 0. -/
def decodeTableWord (nbits w : Nat) : Option Instr :=
  match decodeBytes (bytesOfWord (BitVec.ofNat 16 (w % 2 ^ nbits))) with
  | .ok (i, _) => some i
  | .error _ => none

end Sys2Proof
end

