-- ==== Sys2Proof/Machine/Operands.lean ====
section
/-! DEFINITION. Every operand form the spec gives: registers, zero-extended immediates, the base `I` plus an offset
(43_index_memory.md R176), key numbers (45_keys_timers.md R200) and sprite coordinates (44_display.md R191). -/

namespace Sys2Proof.Machine

/-- `VF`, the register that doubles as the flag (R21). -/
def VF : Reg := 15

/-- `V[x]` (R9). -/
def State.reg (s : State) (x : Reg) : Byte := s.V[x.val]

/-- `V[0..x]`, in rising order (R174). -/
def State.regsUpTo (s : State) (x : Reg) : List Byte := s.V.toList.take (x.val + 1)

/-- A jump or index target: `zext_16(nnn)` (R83). -/
def addrOf (nnn : Addr12) : Word := nnn.setWidth 16

/-- The target of `Bnnn`: `zext_16(nnn) + zext_16(v0)` (R139). -/
def offsetTarget (nnn : Addr12) (v0 : Byte) : Word := nnn.setWidth 16 + v0.setWidth 16

/-- The effective address of data accesses: the natural-number sum `I + offset`, not reduced (R52, R176). -/
def State.dataAddr (s : State) (offset : Nat) : Nat := s.I.toNat + offset

/-- The bounds rule (R52): every one of `len` bytes from `base` is in 0..4095; no byte, no check. -/
def inMemory (base len : Nat) : Bool := len == 0 || base + len ≤ Config.memSize

/-- The key a register's whole 8-bit value names, if there is one (R200, R201). -/
def keyOf (v : Byte) : Option Key := if h : v.toNat < 16 then some ⟨v.toNat, h⟩ else none

/-- The address of the font glyph for a value: `5 × zext_16(vx)` (R172). -/
def glyphAddr (vx : Byte) : Word := 5 * vx.setWidth 16

/-- `I + Vx` modulo 65536 (R171). -/
def indexSum (i : Word) (vx : Byte) : Word := i + vx.setWidth 16

/-- The decimal digits of a value: hundreds, tens, ones (R173). -/
def decimalDigits (vx : Byte) : List Byte := [vx / 100, vx / 10 % 10, vx % 10]

/-- The row of a sprite's `row`-th line: `(vy + row) mod 32` (R191, decision D9, log entry 12). -/
def spriteRow (vy : Byte) (row : Nat) : Fin 32 := ⟨(vy.toNat + row) % 32, Nat.mod_lt _ (by decide)⟩

/-- The column of a sprite's `col`-th pixel: `(vx + col) mod 64` (R191, decision D9, log entry 12). -/
def spriteCol (vx : Byte) (col : Nat) : Fin 64 := ⟨(vx.toNat + col) % 64, Nat.mod_lt _ (by decide)⟩

/-- Whether a sprite byte's `col`-th pixel is 1: bit 7 is the leftmost (R191, decision D8, log entry 12). -/
def spriteBit (b : Byte) (col : Nat) : Bool := b.getLsbD (7 - col)

end Sys2Proof.Machine
end

