-- ==== Sys2Proof/Machine/Ops.lean ====
section
/-! DEFINITION. The named operations over registers, memory, stack, framebuffer and free values, and raising a fault. -/

namespace Sys2Proof.Machine

/-- `V[x] <- v` (R9). -/
def State.setReg (s : State) (x : Reg) (v : Byte) : State := { s with V := s.V.set x.val v }

/-- `V[i] <- f i` for `i` in `0..x`; the registers above `x` keep their values (R175). -/
def State.setRegsUpTo (s : State) (x : Reg) (f : Nat → Byte) : State :=
  { s with V := Vector.ofFn fun i : Fin 16 => if i ≤ x then f i.val else s.V[i.val] }

/-- `pc <- a` (R24). -/
def State.setPc (s : State) (a : Word) : State := { s with pc := a }

/-- Skip the next instruction when the condition holds: `pc <- pc + 2` (R112). -/
def State.skipIf (s : State) (c : Bool) : State := if c then s.setPc (s.pc + 2) else s

/-- `I <- a` (R26). -/
def State.setI (s : State) (a : Word) : State := { s with I := a }

/-- `DT <- v` (R27). -/
def State.setDT (s : State) (v : Byte) : State := { s with DT := v }

/-- `ST <- v` (R27). -/
def State.setST (s : State) (v : Byte) : State := { s with ST := v }

/-- `mem[a]`, with no check (R55). -/
def State.byteAt (s : State) (a : Nat) : Byte := Memory.read s.font s.mem a

/-- `mem[a] <- b`, with no check (R55). -/
def State.setByte (s : State) (a : Nat) (b : Byte) : State := { s with mem := Memory.write s.font s.mem a b }

/-- The bytes at `a, a + 1, …`, `len` of them (R54). -/
def State.loadBytes (s : State) : Nat → Nat → List Byte
  | _, 0 => []
  | a, len + 1 => s.byteAt a :: s.loadBytes (a + 1) len

/-- Store bytes at `a, a + 1, …`, the first at the lowest address (R54). -/
def State.storeBytes (s : State) : Nat → List Byte → State
  | _, [] => s
  | a, b :: bs => (s.setByte a b).storeBytes (a + 1) bs

/-- `sp`, the number of pending return addresses (R29). -/
def State.sp (s : State) : Nat := s.stack.length

/-- `Push(addr)` (R130): nothing when 16 addresses are pending. -/
def State.push (s : State) (addr : Word) : Option State :=
  if s.sp < Config.stackDepth then some { s with stack := s.stack ++ [addr] } else none

/-- `Pop()` (R131): the most recently pushed address and the stack without it; nothing when none is pending. -/
def State.pop (s : State) : Option (Word × State) :=
  match s.stack.getLast? with
  | some addr => some (addr, { s with stack := s.stack.dropLast })
  | none => none

/-- `fb[r][c]` (R31). -/
def Screen.lit (fb : Screen) (r : Fin 32) (c : Fin 64) : Bool := fb[r.val][c.val]

/-- `fb[r][c] <- fb[r][c] XOR 1` (R191). -/
def Screen.toggle (fb : Screen) (r : Fin 32) (c : Fin 64) : Screen :=
  fb.set r.val (fb[r.val].set c.val (!fb[r.val][c.val]))

/-- All cells unlit (R190). -/
def Screen.blank : Screen := Vector.replicate 32 (Vector.replicate 64 false)

/-- The 2048 cells in row-major order, cell `64 × r + c` (R31, decision D17, log entry 14). -/
def Screen.cells (fb : Screen) : List Bool := fb.toList.flatMap Vector.toList

/-- `fb[r][c]` of a state (R31). -/
def State.pixel (s : State) (r : Fin 32) (c : Fin 64) : Bool := Screen.lit s.fb r c

/-- Replace the framebuffer. -/
def State.setScreen (s : State) (fb : Screen) : State := { s with fb := fb }

/-- `keys[k]` (R30). -/
def State.key (s : State) (k : Key) : Bool := s.keys[k.val]

/-- `Draw8()` (R165): a free byte, a fresh one at each draw. -/
def State.draw8 (s : State) : Byte × State := (Config.draw8 s.free, { s with free := s.free + 1 })

/-- Raise a fault (R242, R245, R246): the command ends at once with the record of the cause, the address the
instruction was fetched from (`pc` has been advanced past it) and its word. No control is transferred and no
register is saved: the record is the only thing the spec gives a faulted core. -/
def raise (cause : Word → Word → Fault) (i : Instr) (s : State) : Host.Outcome State Fault Refusal :=
  .fault (cause (s.pc - 2) (encode i))

/-- The core after a fault (R246): `fault` is set to the record; every other piece of state is a free value
(clause (c)), taken afresh. There is no return from it but RESET (R248). -/
def State.enterFault (s : State) (f : Fault) : State :=
  let r := Config.residue s.free
  { V := r.V, pc := r.pc, I := r.I, DT := r.DT, ST := r.ST, mem := Memory.ofBytes s.font r.mem
    stack := r.stack.take Config.stackDepth, keys := r.keys, fb := r.fb, fault := some f, font := s.font
    free := s.free + 1 }

/-- The numeric cause code of a record (R240). -/
def Fault.code : Fault → Nat
  | .loadOverflow => 1
  | .stackOverflow _ _ => 2
  | .stackUnderflow _ _ => 3
  | .outOfRange _ _ => 4
  | .invalidOpcode _ _ => 5

/-- `fpc` of a record (R33). -/
def Fault.fpc : Fault → Word
  | .loadOverflow => 0
  | .stackOverflow fpc _ | .stackUnderflow fpc _ | .outOfRange fpc _ | .invalidOpcode fpc _ => fpc

/-- `fiw` of a record (R33). -/
def Fault.fiw : Fault → Word
  | .loadOverflow => 0
  | .stackOverflow _ fiw | .stackUnderflow _ fiw | .outOfRange _ fiw | .invalidOpcode _ fiw => fiw

end Sys2Proof.Machine
end

