-- ==== Sys2Proof/Machine/Alu.lean ====
section
/-! DEFINITION. Register load, 8-bit ALU and random (42_load_alu.md). Operands are read before any write, and the two
writes of a flag-setting instruction happen in the order its row lists them (R113, R151, decision D7, log entry 6). -/

namespace Sys2Proof.Machine

/-- Result first, flag second: `8xy4`, `8xy5` (R151). -/
def State.resultThenFlag (s : State) (x : Reg) (result flag : Byte) : State := (s.setReg x result).setReg VF flag

/-- Flag first, result second: `8xy6`, `8xy7`, `8xyE` (R151). -/
def State.flagThenResult (s : State) (x : Reg) (result flag : Byte) : State := (s.setReg VF flag).setReg x result

/-- `6xkk`: `Vx <- kk` (R152). -/
def execLdImm (x : Reg) (kk : Byte) (s : State) : Host.Outcome State Fault Refusal := .next (s.setReg x kk)

/-- `7xkk`: `Vx <- (Vx + kk) mod 256`, no flag (R153). -/
def execAddImm (x : Reg) (kk : Byte) (s : State) : Host.Outcome State Fault Refusal := .next (s.setReg x (s.reg x + kk))

/-- `8xy0`: `Vx <- Vy` (R154). -/
def execLdReg (x y : Reg) (s : State) : Host.Outcome State Fault Refusal := .next (s.setReg x (s.reg y))

/-- `8xy1`: `Vx <- Vx OR Vy` (R155). -/
def execOrReg (x y : Reg) (s : State) : Host.Outcome State Fault Refusal := .next (s.setReg x (s.reg x ||| s.reg y))

/-- `8xy2`: `Vx <- Vx AND Vy` (R156). -/
def execAndReg (x y : Reg) (s : State) : Host.Outcome State Fault Refusal := .next (s.setReg x (s.reg x &&& s.reg y))

/-- `8xy3`: `Vx <- Vx XOR Vy` (R157). -/
def execXorReg (x y : Reg) (s : State) : Host.Outcome State Fault Refusal := .next (s.setReg x (s.reg x ^^^ s.reg y))

/-- `8xy4`: `Vx <- (Vx + Vy) mod 256`, then VF = carry (R158). -/
def execAddReg (x y : Reg) (s : State) : Host.Outcome State Fault Refusal :=
  .next (s.resultThenFlag x (s.reg x + s.reg y) (carryFlag (s.reg x) (s.reg y)))

/-- `8xy5`: `Vx <- (Vx − Vy) mod 256`, then VF = no borrow (R159). -/
def execSubReg (x y : Reg) (s : State) : Host.Outcome State Fault Refusal :=
  .next (s.resultThenFlag x (s.reg x - s.reg y) (noBorrowFlag (s.reg x) (s.reg y)))

/-- `8xy6`: VF = bit 0 of `Vx`, then `Vx <- Vx div 2`; `y` is not used (R160). -/
def execShr (x _y : Reg) (s : State) : Host.Outcome State Fault Refusal :=
  .next (s.flagThenResult x (s.reg x >>> 1) (lowBitFlag (s.reg x)))

/-- `8xy7`: VF = (`Vy > Vx`), then `Vx <- (Vy − Vx) mod 256` (R161). -/
def execSubnReg (x y : Reg) (s : State) : Host.Outcome State Fault Refusal :=
  .next (s.flagThenResult x (s.reg y - s.reg x) (greaterFlag (s.reg y) (s.reg x)))

/-- `8xyE`: VF = bit 7 of `Vx`, then `Vx <- (2 × Vx) mod 256`; `y` is not used (R162). -/
def execShl (x _y : Reg) (s : State) : Host.Outcome State Fault Refusal :=
  .next (s.flagThenResult x (s.reg x <<< 1) (highBitFlag (s.reg x)))

/-- `Cxkk`: `r = Draw8(); Vx <- r AND kk` (R163). -/
def execRnd (x : Reg) (kk : Byte) (s : State) : Host.Outcome State Fault Refusal :=
  .next (s.draw8.2.setReg x (s.draw8.1 &&& kk))

end Sys2Proof.Machine
end

