-- ==== Sys2Proof/Machine/Control.lean ====
section
/-! DEFINITION. Control transfer: return, jump, call, skips, indexed jump (41_control_flow.md). `pc` is the address
after the instruction when a meaning begins (R112). -/

namespace Sys2Proof.Machine

/-- `00EE`, return: `pc <- Pop()` (R132). -/
def execRet (s : State) : Host.Outcome State Fault Refusal :=
  match s.pop with
  | some (addr, t) => .next (t.setPc addr)
  | none => raise .stackUnderflow .ret s

/-- `1nnn`, jump (R133). -/
def execJp (nnn : Addr12) (s : State) : Host.Outcome State Fault Refusal := .next (s.setPc (addrOf nnn))

/-- `2nnn`, call: `Push(pc); pc <- zext_16(nnn)` (R134). -/
def execCall (nnn : Addr12) (s : State) : Host.Outcome State Fault Refusal :=
  match s.push s.pc with
  | some t => .next (t.setPc (addrOf nnn))
  | none => raise .stackOverflow (.call nnn) s

/-- `3xkk`, skip if `Vx = kk` (R135). -/
def execSeImm (x : Reg) (kk : Byte) (s : State) : Host.Outcome State Fault Refusal := .next (s.skipIf (s.reg x == kk))

/-- `4xkk`, skip if `Vx ≠ kk` (R136). -/
def execSneImm (x : Reg) (kk : Byte) (s : State) : Host.Outcome State Fault Refusal := .next (s.skipIf (s.reg x != kk))

/-- `5xy0`, skip if `Vx = Vy` (R137). -/
def execSeReg (x y : Reg) (s : State) : Host.Outcome State Fault Refusal := .next (s.skipIf (s.reg x == s.reg y))

/-- `9xy0`, skip if `Vx ≠ Vy` (R138). -/
def execSneReg (x y : Reg) (s : State) : Host.Outcome State Fault Refusal := .next (s.skipIf (s.reg x != s.reg y))

/-- `Bnnn`, jump to `nnn + V0` (R139). -/
def execJpV0 (nnn : Addr12) (s : State) : Host.Outcome State Fault Refusal := .next (s.setPc (offsetTarget nnn (s.reg 0)))

end Sys2Proof.Machine
end

