-- ==== Sys2Proof/Machine/Display.lean ====
section
/-! DEFINITION. The framebuffer instructions `00E0` and `Dxyn` (44_display.md). -/

namespace Sys2Proof.Machine

/-- `00E0`, clear the framebuffer (R190). -/
def execCls (s : State) : Host.Outcome State Fault Refusal := .next (s.setScreen Screen.blank)

/-- One sprite bit that is 1: note a collision if its cell is lit, then toggle the cell (R191). -/
def plotBit (fc : Screen × Bool) (r : Fin 32) (c : Fin 64) : Screen × Bool :=
  (Screen.toggle fc.1 r c, fc.2 || Screen.lit fc.1 r c)

/-- One row of a sprite: the 8 columns of a byte (R191). -/
def plotRow (vx : Byte) (r : Fin 32) (b : Byte) (fc : Screen × Bool) : Screen × Bool :=
  (List.range 8).foldl (fun fc col => if spriteBit b col then plotBit fc r (spriteCol vx col) else fc) fc

/-- The rows of a sprite from the `row`-th on, the top row first (R191). -/
def plotRows (vx vy : Byte) : Nat → List Byte → Screen × Bool → Screen × Bool
  | _, [], fc => fc
  | row, b :: bs, fc => plotRows vx vy (row + 1) bs (plotRow vx (spriteRow vy row) b fc)

/-- `Dxyn`, draw sprite (R191). -/
def execDrw (x y : Reg) (n : Nibble) (s : State) : Host.Outcome State Fault Refusal :=
  if inMemory (s.dataAddr 0) n.toNat then
    let fc := plotRows (s.reg x) (s.reg y) 0 (s.loadBytes (s.dataAddr 0) n.toNat) (s.fb, false)
    .next ((s.setScreen fc.1).setReg VF (flagByte fc.2))
  else raise .outOfRange (.drw x y n) s

end Sys2Proof.Machine
end

