-- ==== Sys2Proof/Machine/Index.lean ====
section
/-! DEFINITION. Index register and memory transfer (43_index_memory.md). `I` is the base and is not modified by an
access; the bounds check covers the whole range before the first byte moves (R52, R176). -/

namespace Sys2Proof.Machine

/-- `Annn`: `I <- zext_16(nnn)` (R170). -/
def execLdI (nnn : Addr12) (s : State) : Host.Outcome State Fault Refusal := .next (s.setI (addrOf nnn))

/-- `Fx1E`: `I <- (I + Vx) mod 65536`, no flag (R171). -/
def execAddI (x : Reg) (s : State) : Host.Outcome State Fault Refusal := .next (s.setI (indexSum s.I (s.reg x)))

/-- `Fx29`: `I <- 5 × Vx` (R172). -/
def execLdF (x : Reg) (s : State) : Host.Outcome State Fault Refusal := .next (s.setI (glyphAddr (s.reg x)))

/-- `Fx33`: the decimal digits of `Vx` to `mem[I..I+2]` (R173). -/
def execLdB (x : Reg) (s : State) : Host.Outcome State Fault Refusal :=
  if inMemory (s.dataAddr 0) 3 then .next (s.storeBytes (s.dataAddr 0) (decimalDigits (s.reg x)))
  else raise .outOfRange (.ldB x) s

/-- `Fx55`: `V[0..x]` to `mem[I..I+x]` (R174). -/
def execStoreRegs (x : Reg) (s : State) : Host.Outcome State Fault Refusal :=
  if inMemory (s.dataAddr 0) (x.val + 1) then .next (s.storeBytes (s.dataAddr 0) (s.regsUpTo x))
  else raise .outOfRange (.storeRegs x) s

/-- `Fx65`: `mem[I..I+x]` to `V[0..x]` (R175). -/
def execLoadRegs (x : Reg) (s : State) : Host.Outcome State Fault Refusal :=
  if inMemory (s.dataAddr 0) (x.val + 1) then .next (s.setRegsUpTo x fun i => s.byteAt (s.dataAddr i))
  else raise .outOfRange (.loadRegs x) s

end Sys2Proof.Machine
end

