-- ==== Sys2Proof/Machine/KeysTimers.lean ====
section
/-! DEFINITION. Keyboard and timer instructions (45_keys_timers.md). -/

namespace Sys2Proof.Machine

/-- `Ex9E`, skip if the key numbered `Vx` is pressed (R200). -/
def execSkp (x : Reg) (s : State) : Host.Outcome State Fault Refusal :=
  match keyOf (s.reg x) with
  | some k => .next (s.skipIf (s.key k))
  | none => raise .outOfRange (.skp x) s

/-- `ExA1`, skip if the key numbered `Vx` is not pressed (R201). -/
def execSknp (x : Reg) (s : State) : Host.Outcome State Fault Refusal :=
  match keyOf (s.reg x) with
  | some k => .next (s.skipIf (!s.key k))
  | none => raise .outOfRange (.sknp x) s

/-- The scan of `Fx0A`: keys 0 to 15 in order, the last match kept (R202). -/
def State.scanKeys (s : State) : Option Key :=
  (List.finRange 16).foldl (fun found k => if s.key k then some k else found) none

/-- `Fx0A`, wait for a key: the index of the highest key pressed to `Vx`, or `pc <- pc − 2` when none is (R202). -/
def execLdVxK (x : Reg) (s : State) : Host.Outcome State Fault Refusal :=
  match s.scanKeys with
  | some k => .next (s.setReg x (BitVec.ofNat 8 k.val))
  | none => .next (s.setPc (s.pc - 2))

/-- `Fx07`: `Vx <- DT` (R203). -/
def execLdVxDT (x : Reg) (s : State) : Host.Outcome State Fault Refusal := .next (s.setReg x s.DT)

/-- `Fx15`: `DT <- Vx` (R204). -/
def execLdDTVx (x : Reg) (s : State) : Host.Outcome State Fault Refusal := .next (s.setDT (s.reg x))

/-- `Fx18`: `ST <- Vx` (R205). -/
def execLdSTVx (x : Reg) (s : State) : Host.Outcome State Fault Refusal := .next (s.setST (s.reg x))

end Sys2Proof.Machine
end

