-- ==== Sys2Proof/Machine/Fetch.lean ====
section
/-! DEFINITION. The fetch of a STEP (40_fetch_decode_dispatch.md R111, R112) and where a next instruction is placed. -/

namespace Sys2Proof.Machine

/-- The two bytes at `pc`, big-endian (R53), with no alignment check and no lower bound (R56, R57); nothing when
`pc + 1 ≥ 4096`, the sum taken without wrap-around (R111). -/
def State.fetchWord (s : State) : Option Word :=
  if s.pc.toNat + 1 < Config.memSize then
    some (wordOfBytes (s.byteAt s.pc.toNat) (s.byteAt (s.pc.toNat + 1)))
  else none

/-- The fetch advances `pc` by 2, before the instruction's own effect (R112). -/
def State.advance (s : State) : State := s.setPc (s.pc + 2)

/-- Fetch, decode and dispatch, in that order, the first failure reported (R110, R117): the instruction at `pc`, or
`OutOfRange` with `fiw = 0` for a word that cannot be fetched (R111), or `InvalidOpcode` with the word for one that
matches no pattern (R115). -/
def State.nextInstr (s : State) : Except Fault Instr :=
  match s.fetchWord with
  | none => .error (.outOfRange s.pc 0)
  | some iw =>
    match decodeWord iw with
    | .ok i => .ok i
    | .error _ => .error (.invalidOpcode s.pc iw)

/-- The state with the two bytes of a word stored where the next fetch reads them. -/
def State.placeWord (s : State) (iw : Word) : State := s.storeBytes s.pc.toNat (bytesOfWord iw)

end Sys2Proof.Machine
end

