-- ==== Sys2Proof/Machine/Step.lean ====
section
/-! DEFINITION. One STEP command (40_fetch_decode_dispatch.md R110): fetch, decode, dispatch, the effect of one
instruction. -/

namespace Sys2Proof.Machine

/-- STEP (R110). A faulted core executes nothing and gives its record again (R230, R246). -/
def step (s : State) : Host.Outcome State Fault Refusal :=
  match s.fault with
  | some f => .fault f
  | none =>
    match s.nextInstr with
    | .ok i => exec i s.advance
    | .error f => .fault f

/-- The state with an instruction word, numbered as the opcode table numbers its bits, stored where `step` fetches
its next instruction; no fault is recorded, or nothing would be fetched. -/
def State.withFetchWord (s : State) (nbits w : Nat) : State :=
  { s.placeWord (BitVec.ofNat 16 (w % 2 ^ nbits)) with fault := none }

end Sys2Proof.Machine
end

