-- ==== Sys2Proof/Machine/HostCommands.lean ====
section
/-! DEFINITION. The host interface: the five commands and their outputs (46_host_commands.md). STEP is `step`; this file
closes it into a total transition of the core, in which a fault leaves the core faulted until RESET. -/

namespace Sys2Proof.Machine

/-- A command of the command port (R220). The key index is 4 bits wide, so no larger one can be presented (R226). -/
inductive Command where
  | reset
  | load (image : List Byte)
  | setKey (k : Key) (pressed : Bool)
  | step
  | tick
deriving DecidableEq, Repr

/-- What a command returns (R229). -/
inductive Output where
  /-- RESET, LOAD and SETKEY succeed and return nothing more. -/
  | done
  /-- STEP returns the 2048 cells (R224). -/
  | frame (cells : List Bool)
  /-- TICK returns the beep bit (R228). -/
  | beep (on : Bool)
  /-- A command that faulted, or any command but RESET on a faulted core, with the fault record (R229, R230). -/
  | failure (f : Fault)
  /-- The model has no answer. No command of this model gives it. -/
  | unmodelled (r : Refusal)
deriving DecidableEq, Repr

/-- RESET (R222): a fresh construction; the parameter `FONT` and the source of free values are no state of the core. -/
def State.afterReset (s : State) : State := State.resetWith s.font s.free

/-- Whether LOAD rejects an image (R223). -/
def imageTooLong (image : List Byte) : Bool := decide (image.length > Config.maxImage)

/-- LOAD of an image that fits: its bytes from 0x200 up, and nothing else (R223). -/
def State.loadImage (s : State) (image : List Byte) : State := s.storeBytes Config.start image

/-- SETKEY (R226). -/
def State.setKey (s : State) (k : Key) (pressed : Bool) : State := { s with keys := s.keys.set k.val pressed }

/-- One timer's countdown: 0 stays 0 (R228). -/
def countdown (v : Byte) : Byte := if v = 0 then 0 else v - 1

/-- TICK (R228): both timers count down. -/
def State.tick (s : State) : State := (s.setDT (countdown s.DT)).setST (countdown s.ST)

/-- TICK's beep bit, tested before the decrement (R228). -/
def State.beep (s : State) : Bool := s.ST == 1

/-- A command issued to a core that is not faulted. -/
def State.accept (s : State) : Command → State × Output
  | .reset => (s.afterReset, .done)
  | .load image => if imageTooLong image then (s.enterFault .loadOverflow, .failure .loadOverflow) else (s.loadImage image, .done)
  | .setKey k pressed => (s.setKey k pressed, .done)
  | .step =>
    match step s with
    | .next t => (t, .frame (Screen.cells t.fb))
    | .fault f => (s.enterFault f, .failure f)
    | .refused r => (s, .unmodelled r)
  | .tick => (s.tick, .beep s.beep)

/-- A command issued to a faulted core: RESET works, every other command gives the record again and changes nothing
(R222, R230). -/
def State.acceptFaulted (s : State) (f : Fault) : Command → State × Output
  | .reset => (s.afterReset, .done)
  | .load _ | .setKey _ _ | .step | .tick => (s, .failure f)

/-- One command (R220). -/
def command (c : Command) (s : State) : State × Output :=
  match s.fault with
  | none => s.accept c
  | some f => s.acceptFaulted f c

/-- A run: a finite sequence of commands chosen by the host, and what each returned (R221). -/
def runCommands : List Command → State → State × List Output
  | [], s => (s, [])
  | c :: cs, s =>
    let r := command c s
    let rest := runCommands cs r.1
    (rest.1, r.2 :: rest.2)

end Sys2Proof.Machine
end

