-- ==== Sys2Proof/Safety.lean ====
section
/-! DEFINITION. The terms claims use: the invariant of the core, what an instruction may write, and when a step is safe. -/

namespace Sys2Proof.Machine

/-- Memory is in its canonical form (R28). -/
def State.MemoryCanonical (s : State) : Prop := Memory.wf s.font s.mem = true

/-- "`call_stack` depth never exceeds 16" (R29). -/
def State.StackBounded (s : State) : Prop := s.sp ≤ 16

/-- The range of `pc` and of every pending return address (R25): `pc` at most 0x10FE, a return address at most 0x1000. -/
def State.PcBounded (s : State) : Prop := s.pc.toNat ≤ 0x10FE ∧ ∀ a ∈ s.stack, a.toNat ≤ 0x1000

/-- The invariant of the core. Of a faulted core only the form of its data is claimed (R246). -/
def State.Inv (s : State) : Prop :=
  s.MemoryCanonical ∧ s.StackBounded ∧ (s.fault = none → s.PcBounded)

/-- A STEP is safe when it executes its instruction to completion: no fault is raised (R246). -/
def State.StepsSafely (s : State) : Prop := ∃ t, step s = .next t

/-- What an instruction may write; what is not named is unchanged. -/
structure Footprint where
  /-- General registers that may change. -/
  regs : List Reg := []
  pc : Bool := false
  index : Bool := false
  delay : Bool := false
  sound : Bool := false
  /-- First byte of memory that may change, and how many. -/
  memBase : Nat := 0
  memLen : Nat := 0
  stack : Bool := false
  screen : Bool := false
  /-- Whether a free value is taken. -/
  free : Bool := false
deriving DecidableEq, Repr

/-- `t` agrees with `s` on every piece of state the footprint does not name: every other register, `pc`, `I`, the
timers, every byte of memory outside the named ones, the stack, every cell of the framebuffer, the count of free
values; and, whatever the footprint, on the key latches, the fault record and the font, which no instruction writes. -/
def Frame (f : Footprint) (s t : State) : Prop :=
  (∀ r, r ∉ f.regs → t.reg r = s.reg r) ∧
  (f.pc = false → t.pc = s.pc) ∧
  (f.index = false → t.I = s.I) ∧
  (f.delay = false → t.DT = s.DT) ∧
  (f.sound = false → t.ST = s.ST) ∧
  (∀ a, a < f.memBase ∨ f.memBase + f.memLen ≤ a → t.byteAt a = s.byteAt a) ∧
  (f.stack = false → t.stack = s.stack) ∧
  (f.screen = false → ∀ r c, t.pixel r c = s.pixel r c) ∧
  (f.free = false → t.free = s.free) ∧
  t.keys = s.keys ∧ t.fault = s.fault ∧ t.font = s.font

/-- The registers `V0` to `Vx`. -/
def regsFrom0To (x : Reg) : List Reg := (List.finRange 16).filter (· ≤ x)

/-- What each instruction may write, from the spec's access lists: registers R21 and R22, `pc` R24 and R112, `I` R26,
timers R27, memory R51, stack R29, framebuffer R195, random source R165. -/
def footprint (i : Instr) (s : State) : Footprint :=
  match i with
  | .cls => { screen := true }
  | .ret | .call _ => { pc := true, stack := true }
  | .jp _ | .jpV0 _ | .seImm _ _ | .sneImm _ _ | .seReg _ _ | .sneReg _ _ | .skp _ | .sknp _ => { pc := true }
  | .ldImm x _ | .addImm x _ | .ldReg x _ | .orReg x _ | .andReg x _ | .xorReg x _ | .ldVxDT x => { regs := [x] }
  | .addReg x _ | .subReg x _ | .shr x _ | .subnReg x _ | .shl x _ => { regs := [x, VF] }
  | .ldI _ | .addI _ | .ldF _ => { index := true }
  | .rnd x _ => { regs := [x], free := true }
  | .drw _ _ _ => { regs := [VF], screen := true }
  | .ldVxK x => { regs := [x], pc := true }
  | .ldDTVx _ => { delay := true }
  | .ldSTVx _ => { sound := true }
  | .ldB _ => { memBase := s.I.toNat, memLen := 3 }
  | .storeRegs x => { memBase := s.I.toNat, memLen := x.val + 1 }
  | .loadRegs x => { regs := regsFrom0To x }

/-- The effects of a sequence of instructions, one after the other, stopping at the first that does not complete. -/
def execAll : List Instr → State → Host.Outcome State Fault Refusal
  | [], s => .next s
  | i :: is, s =>
    match exec i s with
    | .next t => execAll is t
    | .fault f => .fault f
    | .refused r => .refused r

/-- The byte at an address once `len` bytes have been stored from `base`, the `k`-th of them `v k`: the stored byte inside
the range, the old byte outside it (R54, R55). -/
def State.overlaid (s : State) (base len : Nat) (v : Nat → Byte) (a : Nat) : Byte :=
  if base ≤ a ∧ a < base + len then v (a - base) else s.byteAt a

/-- How many rows below row `vy`, counted round the screen, a row lies (R191, decision D9, log entry 12). -/
def rowsBelow (vy : Byte) (r : Fin 32) : Nat := (r.val + 256 - vy.toNat) % 32

/-- How many columns right of column `vx`, counted round the screen, a column lies (R191, decision D9, log entry 12). -/
def colsRight (vx : Byte) (c : Fin 64) : Nat := (c.val + 256 - vx.toNat) % 64

/-- The sprite bit that lands on cell (`r`, `c`) when the `n` bytes at `I` are drawn at column `vx`, row `vy`: bit `7 − dc` of
byte `dr`, when the cell is `dr < n` rows below and `dc < 8` columns right of the start (R191, R192). -/
def State.spriteAt (s : State) (vx vy : Byte) (n : Nat) (r : Fin 32) (c : Fin 64) : Bool :=
  decide (rowsBelow vy r < n) && decide (colsRight vx c < 8) &&
    (s.byteAt (s.I.toNat + rowsBelow vy r)).getLsbD (7 - colsRight vx c)

end Sys2Proof.Machine
end

