-- ==== Sys2Proof/Certificates/Slice0/Obligations.lean ====
section
/-! DEFINITION. The statements of this row, for the provers: each is a claim about the model that a rule of spec/ makes of
the machine. `exec` is read on the state the fetch left, so `s.pc` is the address after the instruction (R112). -/

open Sys2Proof Sys2Proof.Machine

/-! ## Encoding -/

/-- Every instruction, with every operand at every value its field admits, is what its word decodes to. -/
def Obligations.EncodedInstructionDecodesToItself : Prop :=
  ∀ i : Instr, decodeWord (encode i) = .ok i

/-- A word that decodes is the word its instruction encodes to: decoding drops no bit of a valid word. -/
def Obligations.DecodedWordIsReencodedExactly : Prop :=
  ∀ (iw : Word) (i : Instr), decodeWord iw = .ok i → encode i = iw

/-- R86: at most one row of the opcode map admits a word, and the decoder gives the instruction of that row, or
rejects the word by name when there is none. -/
def Obligations.DecoderFollowsTheOpcodeMap : Prop :=
  opcodeRows.length = 34 ∧
  ∀ iw : Word,
    (∀ r ∈ opcodeRows, ∀ q ∈ opcodeRows, r.admits iw = true → q.admits iw = true → r = q) ∧
    (∀ r ∈ opcodeRows, r.admits iw = true → ∃ i, decodeWord iw = .ok i ∧ i.row = r) ∧
    ((∀ r ∈ opcodeRows, r.admits iw = false) → decodeWord iw = .error (.invalidWord iw))

/-- Words written out from the spec's examples decode to the instructions they stand for, and words of every invalid
group are rejected: `d1` = 0, 5, 8, 9, E, F. -/
def Obligations.SpecExampleWordsDecode : Prop :=
  decodeWord 0x6A05 = .ok (.ldImm 10 5) ∧ decodeWord 0xD12F = .ok (.drw 1 2 0xF) ∧
  decodeWord 0xF865 = .ok (.loadRegs 8) ∧ decodeWord 0x2204 = .ok (.call 0x204) ∧
  decodeWord 0x00E0 = .ok .cls ∧ decodeWord 0x81F7 = .ok (.subnReg 1 15) ∧ decodeWord 0xE4A1 = .ok (.sknp 4) ∧
  decodeWord 0x0000 = .error (.invalidWord 0x0000) ∧ decodeWord 0x5121 = .error (.invalidWord 0x5121) ∧
  decodeWord 0x812F = .error (.invalidWord 0x812F) ∧ decodeWord 0x9121 = .error (.invalidWord 0x9121) ∧
  decodeWord 0xE19F = .error (.invalidWord 0xE19F) ∧
  decodeWord 0xF10B = .error (.invalidWord 0xF10B)

/-! ## The STEP sequence -/

/-- When the two bytes at `pc` decode to an instruction, STEP is that instruction's effect on the state whose `pc` has
been advanced by 2. -/
def Obligations.StepRunsTheDecodedInstruction : Prop :=
  ∀ (s : State) (i : Instr), s.fault = none → s.pc.toNat + 1 < 4096 →
    decodeWord (s.byteAt s.pc.toNat ++ s.byteAt (s.pc.toNat + 1)) = .ok i →
    step s = exec i { s with pc := s.pc + 2 }

/-- The fetch (R111) reads two bytes big-endian and advances `pc` by 2, whatever the parity of `pc` and however low it is;
from 0xFFF on, without wrap-around, it raises `OutOfRange` with `fpc = pc` and `fiw = 0`. No check of
parity or lower bound: decisions D2, D3 (log entry 9). -/
def Obligations.FetchReadsBigEndianOrFaults : Prop :=
  ∀ s : State,
    (s.pc.toNat + 1 ≥ 4096 → s.fetchWord = none ∧ (s.fault = none → step s = .fault (.outOfRange s.pc 0))) ∧
    (s.pc.toNat + 1 < 4096 →
      s.fetchWord = some (s.byteAt s.pc.toNat ++ s.byteAt (s.pc.toNat + 1)) ∧
      s.advance.pc.toNat = s.pc.toNat + 2 ∧ Frame { pc := true } s s.advance)

/-- A word that matches no pattern raises `InvalidOpcode` (R115) with the word and the address it was fetched from. That the
record holds the address is the spec's decision D6 (log entry 4). -/
def Obligations.UnmatchedWordRaisesInvalidOpcode : Prop :=
  ∀ (s : State) (iw : Word), s.fault = none → s.fetchWord = some iw → wordWellFormed iw = false →
    step s = .fault (.invalidOpcode s.pc iw)

/-- What a fault of STEP records: `fpc` is the value `pc` had when STEP began, and `fiw` the instruction word at `pc`, or 0
for a fault of the fetch itself. The record's layout is the spec's decision D6 (log entry 4). -/
def Obligations.FaultRecordNamesTheFaultingInstruction : Prop :=
  ∀ (s : State) (f : Fault), s.fault = none → step s = .fault f →
    f.fpc = s.pc ∧
    ((s.fetchWord = none ∧ f = .outOfRange s.pc 0) ∨ (∃ iw, s.fetchWord = some iw ∧ f.fiw = iw))

/-- A core whose fault record is set executes nothing: STEP gives the record again. Decisions D4 and D20
of the spec (log entries 2 and 8). -/
def Obligations.FaultedCoreExecutesNothing : Prop :=
  ∀ (s : State) (f : Fault), s.fault = some f → ¬ s.StepsSafely ∧ step s = .fault f

/-- No STEP is refused: every instruction of the table has its meaning. -/
def Obligations.StepIsNeverRefused : Prop :=
  ∀ (s : State) (r : Refusal), step s ≠ .refused r

/-- When each instruction faults: `2nnn` with 16 addresses pending, `00EE` with none, `Dxyn`, `Fx33`, `Fx55`, `Fx65` when a
byte they would touch is beyond 4095, `Ex9E`, `ExA1` when `Vx` is above 15; the other 26 never do. With the cause. -/
def Obligations.InstructionFaultsExactlyWhenTheSpecSays : Prop :=
  ∀ (i : Instr) (s : State),
    (∀ f, exec i s = .fault f →
      (f.code = 2 ∧ ∃ nnn, i = .call nnn) ∨ (f.code = 3 ∧ i = .ret) ∨
      (f.code = 4 ∧ ((∃ x y n, i = .drw x y n) ∨ ∃ x, i ∈ [.ldB x, .storeRegs x, .loadRegs x, .skp x, .sknp x]))) ∧
    ((∃ f, exec i s = .fault f) ↔
      match i with
      | .call _ => s.sp ≥ 16
      | .ret => s.sp = 0
      | .drw _ _ n => n.toNat ≥ 1 ∧ s.I.toNat + n.toNat - 1 ≥ 4096
      | .ldB _ => s.I.toNat + 2 ≥ 4096
      | .storeRegs x | .loadRegs x => s.I.toNat + x.val ≥ 4096
      | .skp x | .sknp x => (s.reg x).toNat ≥ 16
      | _ => False)

/-! ## Invariants and whole-machine rules -/

/-- The state after reset meets the invariant. -/
def Obligations.ResetStateMeetsTheInvariant : Prop := State.reset.Inv

/-- Every STEP keeps the invariant: memory stays in canonical form, at most 16 return addresses are pending, `pc` never
exceeds 0x10FE and so never wraps, and no fault is recorded by a STEP that completes. -/
def Obligations.StepKeepsTheInvariant : Prop :=
  ∀ s t : State, s.Inv → step s = .next t → t.Inv ∧ t.fault = none

/-- Every host command keeps the invariant, a faulting one included. What a faulted core holds is free (log entry 2). -/
def Obligations.CommandKeepsTheInvariant : Prop :=
  ∀ (c : Command) (s : State), s.Inv → (command c s).1.Inv

/-- Whatever sequence of RESET, LOAD, SETKEY, STEP and TICK the host issues after reset, and so whatever program it
loads, the core stays within the invariant and no command is left without an answer. What a faulted core holds is free
data in the invariant's form (log entry 2). -/
def Obligations.EveryScheduleKeepsTheInvariant : Prop :=
  ∀ cs : List Command, (runCommands cs State.reset).1.Inv ∧ ∀ r, Output.unmodelled r ∉ (runCommands cs State.reset).2

/-- Every instruction writes at most what the spec's access lists give it, and no instruction writes the key latches or
the fault record. That `I` is unchanged by `Fx33`, `Fx55`, `Fx65` and `Dxyn` and `VF` by `Fx1E` are the spec's decisions D12
and D13 (log entry 11). -/
def Obligations.InstructionWritesOnlyItsFootprint : Prop :=
  ∀ (i : Instr) (s t : State), exec i s = .next t → Frame (footprint i s) s t

/-- `VF` is overwritten as a side effect by six instructions only; any other instruction that changes it names it as its
destination. That `Fx1E` is not among the six is the spec's decision D13 (log entry 11). -/
def Obligations.OnlySixInstructionsWriteVFImplicitly : Prop :=
  ∀ (i : Instr) (s t : State), exec i s = .next t → t.reg VF ≠ s.reg VF →
    (∃ x y, i ∈ [.addReg x y, .subReg x y, .shr x y, .subnReg x y, .shl x y]) ∨ (∃ x y n, i = .drw x y n) ∨
    (∃ y kk, i ∈ [.ldImm VF kk, .addImm VF kk, .ldReg VF y, .orReg VF y, .andReg VF y, .xorReg VF y, .rnd VF kk]) ∨
    i ∈ [.ldVxDT VF, .ldVxK VF, .loadRegs VF]

/-- No instruction reads the sound timer: two states that differ in `ST` alone take every instruction the same way, and
the results differ at most in `ST`. -/
def Obligations.NoInstructionReadsTheSoundTimer : Prop :=
  ∀ (i : Instr) (s : State) (v : Byte),
    (∀ t, exec i s = .next t → ∃ u, exec i { s with ST := v } = .next u ∧ { u with ST := t.ST } = t) ∧
    (∀ f, exec i s = .fault f → exec i { s with ST := v } = .fault f)

/-- The two instructions that wait in place leave the whole state as they found it: a jump to itself, and `Fx0A` while no
key is pressed. -/
def Obligations.SelfJumpAndKeyWaitChangeNothing : Prop :=
  ∀ (s : State) (i : Instr), s.fault = none → s.fetchWord = some (encode i) →
    ((∃ nnn : Addr12, i = .jp nnn ∧ nnn.toNat = s.pc.toNat) ∨ (∃ x, i = .ldVxK x ∧ ∀ k, s.key k = false)) →
    step s = .next s

/-! ## Control transfer -/

/-- R133: `1nnn` loads `pc` with `nnn`, zero-extended, and changes nothing else; it never faults. -/
def Obligations.JumpLoadsPc : Prop :=
  ∀ (nnn : Addr12) (s : State),
    decodeWord (0x1#4 ++ nnn) = .ok (.jp nnn) ∧
    ∃ t, exec (.jp nnn) s = .next t ∧ t.pc.toNat = nnn.toNat ∧ Frame { pc := true } s t

/-- R134: `2nnn` pushes the address after the call and loads `pc` with `nnn`; with 16 addresses pending it raises
`StackOverflow`. -/
def Obligations.CallPushesReturnAddress : Prop :=
  ∀ (nnn : Addr12) (s : State),
    decodeWord (0x2#4 ++ nnn) = .ok (.call nnn) ∧
    (s.sp < 16 → ∃ t, exec (.call nnn) s = .next t ∧ t.stack = s.stack ++ [s.pc] ∧ t.sp = s.sp + 1 ∧
      t.pc.toNat = nnn.toNat ∧ Frame { pc := true, stack := true } s t) ∧
    (s.sp ≥ 16 → ∃ fpc fiw, exec (.call nnn) s = .fault (.stackOverflow fpc fiw))

/-- R132: `00EE` pops the most recent return address into `pc`; with none pending it raises `StackUnderflow`. -/
def Obligations.ReturnPopsIntoPc : Prop :=
  decodeWord 0x00EE = .ok .ret ∧
  ∀ s : State,
    (∀ older addr, s.stack = older ++ [addr] →
      ∃ t, exec .ret s = .next t ∧ t.pc = addr ∧ t.stack = older ∧ t.sp + 1 = s.sp ∧
        Frame { pc := true, stack := true } s t) ∧
    (s.stack = [] → ∃ fpc fiw, exec .ret s = .fault (.stackUnderflow fpc fiw))

/-- A call paired with a return restores `pc` to the address after the call, and the stack to what it was; in between the
callee may change any state but the stack. -/
def Obligations.CallThenReturnRestoresPc : Prop :=
  ∀ (nnn : Addr12) (s : State), s.sp < 16 →
    ∃ t, exec (.call nnn) s = .next t ∧
      ∀ u : State, u.stack = t.stack → ∃ w, exec .ret u = .next w ∧ w.pc = s.pc ∧ w.stack = s.stack

/-- Stack discipline: from an empty stack 16 calls in a row succeed, whatever their targets, and a 17th before any return is
a stack overflow. -/
def Obligations.SixteenCallsSucceedAndTheNextOverflows : Prop :=
  ∀ (targets : List Addr12) (s : State), s.sp = 0 → targets.length = 16 →
    ∃ t, execAll (targets.map Instr.call) s = .next t ∧ t.sp = 16 ∧
      ∀ nnn, ∃ fpc fiw, exec (.call nnn) t = .fault (.stackOverflow fpc fiw)

/-- R135 to R138: the four register skips add 2 to the advanced `pc` when their condition holds, change nothing else and
never fault. -/
def Obligations.RegisterSkipsAddTwoWhenConditionHolds : Prop :=
  ∀ (x y : Reg) (kk : Byte) (s : State),
    decodeWord (0x3#4 ++ regBits x ++ kk) = .ok (.seImm x kk) ∧
    decodeWord (0x4#4 ++ regBits x ++ kk) = .ok (.sneImm x kk) ∧
    decodeWord (0x5#4 ++ regBits x ++ regBits y ++ 0x0#4) = .ok (.seReg x y) ∧
    decodeWord (0x9#4 ++ regBits x ++ regBits y ++ 0x0#4) = .ok (.sneReg x y) ∧
    (∃ t, exec (.seImm x kk) s = .next t ∧ t.pc = (if s.reg x = kk then s.pc + 2 else s.pc) ∧ Frame { pc := true } s t) ∧
    (∃ t, exec (.sneImm x kk) s = .next t ∧ t.pc = (if s.reg x ≠ kk then s.pc + 2 else s.pc) ∧ Frame { pc := true } s t) ∧
    (∃ t, exec (.seReg x y) s = .next t ∧ t.pc = (if s.reg x = s.reg y then s.pc + 2 else s.pc) ∧
      Frame { pc := true } s t) ∧
    (∃ t, exec (.sneReg x y) s = .next t ∧ t.pc = (if s.reg x ≠ s.reg y then s.pc + 2 else s.pc) ∧
      Frame { pc := true } s t)

/-- R139: `Bnnn` loads `pc` with the sum `nnn + V0`, not reduced, and changes nothing else. -/
def Obligations.IndexedJumpAddsV0 : Prop :=
  ∀ (nnn : Addr12) (s : State),
    decodeWord (0xB#4 ++ nnn) = .ok (.jpV0 nnn) ∧
    ∃ t, exec (.jpV0 nnn) s = .next t ∧ t.pc.toNat = nnn.toNat + (s.reg 0).toNat ∧ Frame { pc := true } s t

/-! ## Register load, ALU, random -/

/-- R152 to R154: load immediate, add immediate modulo 256 and copy write `Vx` only, with no flag effect. -/
def Obligations.LoadAddImmediateAndCopyWriteOnlyVx : Prop :=
  ∀ (x y : Reg) (kk : Byte) (s : State),
    decodeWord (0x6#4 ++ regBits x ++ kk) = .ok (.ldImm x kk) ∧
    decodeWord (0x7#4 ++ regBits x ++ kk) = .ok (.addImm x kk) ∧
    decodeWord (0x8#4 ++ regBits x ++ regBits y ++ 0x0#4) = .ok (.ldReg x y) ∧
    (∃ t, exec (.ldImm x kk) s = .next t ∧ t.reg x = kk ∧ Frame { regs := [x] } s t) ∧
    (∃ t, exec (.addImm x kk) s = .next t ∧ (t.reg x).toNat = ((s.reg x).toNat + kk.toNat) % 256 ∧
      Frame { regs := [x] } s t) ∧
    (∃ t, exec (.ldReg x y) s = .next t ∧ t.reg x = s.reg y ∧ Frame { regs := [x] } s t)

/-- R155 to R157: OR, AND and XOR act on each bit of `Vx` and `Vy` and write `Vx` only; `VF` is unchanged unless it is
`Vx`. -/
def Obligations.BitwiseOperationsWriteOnlyVx : Prop :=
  ∀ (x y : Reg) (s : State),
    decodeWord (0x8#4 ++ regBits x ++ regBits y ++ 0x1#4) = .ok (.orReg x y) ∧
    decodeWord (0x8#4 ++ regBits x ++ regBits y ++ 0x2#4) = .ok (.andReg x y) ∧
    decodeWord (0x8#4 ++ regBits x ++ regBits y ++ 0x3#4) = .ok (.xorReg x y) ∧
    (∃ t, exec (.orReg x y) s = .next t ∧ Frame { regs := [x] } s t ∧
      ∀ k, (t.reg x).getLsbD k = ((s.reg x).getLsbD k || (s.reg y).getLsbD k)) ∧
    (∃ t, exec (.andReg x y) s = .next t ∧ Frame { regs := [x] } s t ∧
      ∀ k, (t.reg x).getLsbD k = ((s.reg x).getLsbD k && (s.reg y).getLsbD k)) ∧
    (∃ t, exec (.xorReg x y) s = .next t ∧ Frame { regs := [x] } s t ∧
      ∀ k, (t.reg x).getLsbD k = ((s.reg x).getLsbD k ^^ (s.reg y).getLsbD k))

/-- `8xy4`, `8xy5`, `8xy7` with a destination other than `VF`: the sum or difference modulo 256 in `Vx`, and in `VF` the carry
(`Vx + Vy ≥ 256`), the absence of a borrow (`Vx ≥ Vy`), or `Vy > Vx` strictly (log entry 13); always written,
from the old values. That `Vy` is read before any write, when it is `VF`, is the spec's decision D7 (log entry 6). -/
def Obligations.AddAndSubtractSetResultAndFlag : Prop :=
  ∀ (x y : Reg) (s : State),
    decodeWord (0x8#4 ++ regBits x ++ regBits y ++ 0x4#4) = .ok (.addReg x y) ∧
    decodeWord (0x8#4 ++ regBits x ++ regBits y ++ 0x5#4) = .ok (.subReg x y) ∧
    decodeWord (0x8#4 ++ regBits x ++ regBits y ++ 0x7#4) = .ok (.subnReg x y) ∧
    (x ≠ VF →
      (∃ t, exec (.addReg x y) s = .next t ∧ (t.reg x).toNat = ((s.reg x).toNat + (s.reg y).toNat) % 256 ∧
        t.reg VF = (if (s.reg x).toNat + (s.reg y).toNat ≥ 256 then 1 else 0) ∧ Frame { regs := [x, VF] } s t) ∧
      (∃ t, exec (.subReg x y) s = .next t ∧ (t.reg x).toNat = ((s.reg x).toNat + 256 - (s.reg y).toNat) % 256 ∧
        t.reg VF = (if (s.reg x).toNat ≥ (s.reg y).toNat then 1 else 0) ∧ Frame { regs := [x, VF] } s t) ∧
      (∃ t, exec (.subnReg x y) s = .next t ∧ (t.reg x).toNat = ((s.reg y).toNat + 256 - (s.reg x).toNat) % 256 ∧
        t.reg VF = (if (s.reg y).toNat > (s.reg x).toNat then 1 else 0) ∧ Frame { regs := [x, VF] } s t))

/-- `8xy6` and `8xyE` with a destination other than `VF`, for every `y`: `Vx` shifted by one place with a 0 entering, and in
`VF` the bit that left. -/
def Obligations.ShiftsByOneSetTheBitShiftedOut : Prop :=
  ∀ (x y : Reg) (s : State),
    decodeWord (0x8#4 ++ regBits x ++ regBits y ++ 0x6#4) = .ok (.shr x y) ∧
    decodeWord (0x8#4 ++ regBits x ++ regBits y ++ 0xE#4) = .ok (.shl x y) ∧
    (x ≠ VF →
      (∃ t, exec (.shr x y) s = .next t ∧ (t.reg x).toNat = (s.reg x).toNat / 2 ∧
        (t.reg VF).toNat = (s.reg x).toNat % 2 ∧ Frame { regs := [x, VF] } s t) ∧
      (∃ t, exec (.shl x y) s = .next t ∧ (t.reg x).toNat = 2 * (s.reg x).toNat % 256 ∧
        (t.reg VF).toNat = (s.reg x).toNat / 128 ∧ Frame { regs := [x, VF] } s t))

/-- The five flag-setting ALU instructions with `VF` as destination: the flag remains after `8Fy4` and `8Fy5`, the result
after `8Fy6`, `8Fy7` and `8FyE`. The order of the two writes is the spec's own decision D7 (log entry 6). -/
def Obligations.LaterWriteWinsWhenDestinationIsVF : Prop :=
  ∀ (y : Reg) (s : State),
    (∃ t, exec (.addReg VF y) s = .next t ∧ Frame { regs := [VF] } s t ∧
      t.reg VF = (if (s.reg VF).toNat + (s.reg y).toNat ≥ 256 then 1 else 0)) ∧
    (∃ t, exec (.subReg VF y) s = .next t ∧ Frame { regs := [VF] } s t ∧
      t.reg VF = (if (s.reg VF).toNat ≥ (s.reg y).toNat then 1 else 0)) ∧
    (∃ t, exec (.shr VF y) s = .next t ∧ Frame { regs := [VF] } s t ∧ (t.reg VF).toNat = (s.reg VF).toNat / 2) ∧
    (∃ t, exec (.subnReg VF y) s = .next t ∧ Frame { regs := [VF] } s t ∧
      (t.reg VF).toNat = ((s.reg y).toNat + 256 - (s.reg VF).toNat) % 256) ∧
    (∃ t, exec (.shl VF y) s = .next t ∧ Frame { regs := [VF] } s t ∧ (t.reg VF).toNat = 2 * (s.reg VF).toNat % 256)

/-- `Cxkk` (R163) leaves in `Vx` a random byte AND `kk`: every bit that is 0 in `kk` is 0 and every other bit is the drawn
byte's. The byte is `Config.draw8` at the count of free values taken, of which nothing is known (log entry 1). -/
def Obligations.RandomIsMaskedByImmediate : Prop :=
  ∀ (x : Reg) (kk : Byte) (s : State),
    decodeWord (0xC#4 ++ regBits x ++ kk) = .ok (.rnd x kk) ∧
    ∃ t, exec (.rnd x kk) s = .next t ∧ t.free = s.free + 1 ∧ Frame { regs := [x], free := true } s t ∧
      ∀ k, (t.reg x).getLsbD k = ((Config.draw8 s.free).getLsbD k && kk.getLsbD k)

/-! ## Index register and memory -/

/-- R170 and R172: `Annn` loads `I` with `nnn`, `Fx29` with five times the whole of `Vx`; nothing else changes. -/
def Obligations.LoadIndexAndGlyphAddress : Prop :=
  ∀ (nnn : Addr12) (x : Reg) (s : State),
    decodeWord (0xA#4 ++ nnn) = .ok (.ldI nnn) ∧
    decodeWord (0xF#4 ++ regBits x ++ 0x29#8) = .ok (.ldF x) ∧
    (∃ t, exec (.ldI nnn) s = .next t ∧ t.I.toNat = nnn.toNat ∧ Frame { index := true } s t) ∧
    (∃ t, exec (.ldF x) s = .next t ∧ t.I.toNat = 5 * (s.reg x).toNat ∧ Frame { index := true } s t)

/-- `Fx1E` adds `Vx` to `I` modulo 65536 and changes nothing else. That `VF` is not written is the spec's decision D13 (log
entry 11). -/
def Obligations.AddToIndexWrapsAtSixteenBits : Prop :=
  ∀ (x : Reg) (s : State),
    decodeWord (0xF#4 ++ regBits x ++ 0x1E#8) = .ok (.addI x) ∧
    ∃ t, exec (.addI x) s = .next t ∧ t.I.toNat = (s.I.toNat + (s.reg x).toNat) % 65536 ∧ Frame { index := true } s t

/-- `Fx33` stores the three decimal digits of `Vx` at `I`, `I + 1`, `I + 2`, and changes no other byte and no register;
beyond 4095 it raises `OutOfRange`. That `I` is unchanged is the spec's decision D12 (log entry 11). -/
def Obligations.DecimalDigitsAreStoredAtI : Prop :=
  ∀ (x : Reg) (s : State),
    decodeWord (0xF#4 ++ regBits x ++ 0x33#8) = .ok (.ldB x) ∧
    (s.I.toNat + 2 ≤ 4095 → ∃ t, exec (.ldB x) s = .next t ∧
      (t.byteAt s.I.toNat).toNat = (s.reg x).toNat / 100 ∧
      (t.byteAt (s.I.toNat + 1)).toNat = (s.reg x).toNat / 10 % 10 ∧
      (t.byteAt (s.I.toNat + 2)).toNat = (s.reg x).toNat % 10 ∧
      Frame { memBase := s.I.toNat, memLen := 3 } s t) ∧
    (s.I.toNat + 2 > 4095 → ∃ fpc fiw, exec (.ldB x) s = .fault (.outOfRange fpc fiw))

/-- `Fx55` stores `V0` to `Vx` at `I` to `I + x`, and changes no other byte and no register; beyond 4095 it raises
`OutOfRange`. That `I` is unchanged is the spec's decision D12 (log entry 11). -/
def Obligations.RegistersAreStoredFromI : Prop :=
  ∀ (x : Reg) (s : State),
    decodeWord (0xF#4 ++ regBits x ++ 0x55#8) = .ok (.storeRegs x) ∧
    (s.I.toNat + x.val ≤ 4095 → ∃ t, exec (.storeRegs x) s = .next t ∧
      (∀ r : Reg, r ≤ x → t.byteAt (s.I.toNat + r.val) = s.reg r) ∧
      Frame { memBase := s.I.toNat, memLen := x.val + 1 } s t) ∧
    (s.I.toNat + x.val > 4095 → ∃ fpc fiw, exec (.storeRegs x) s = .fault (.outOfRange fpc fiw))

/-- `Fx65` loads `V0` to `Vx` from `I` to `I + x`, leaving the higher registers and all of memory; beyond 4095 it raises
`OutOfRange`. That `I` is unchanged is the spec's decision D12 (log entry 11). -/
def Obligations.RegistersAreLoadedFromI : Prop :=
  ∀ (x : Reg) (s : State),
    decodeWord (0xF#4 ++ regBits x ++ 0x65#8) = .ok (.loadRegs x) ∧
    (s.I.toNat + x.val ≤ 4095 → ∃ t, exec (.loadRegs x) s = .next t ∧
      (∀ r : Reg, r ≤ x → t.reg r = s.byteAt (s.I.toNat + r.val)) ∧
      Frame { regs := regsFrom0To x } s t) ∧
    (s.I.toNat + x.val > 4095 → ∃ fpc fiw, exec (.loadRegs x) s = .fault (.outOfRange fpc fiw))

/-- `Fx55` followed by `Fx65` with the same `I` and `x` restores `V0` to `Vx`, whatever happened in between to the registers
and to memory outside the stored range. -/
def Obligations.StoreThenLoadRestoresRegisters : Prop :=
  ∀ (x : Reg) (s : State), s.I.toNat + x.val ≤ 4095 →
    ∃ t, exec (.storeRegs x) s = .next t ∧
      ∀ u : State, u.I = s.I → (∀ r : Reg, r ≤ x → u.byteAt (s.I.toNat + r.val) = t.byteAt (s.I.toNat + r.val)) →
        ∃ w, exec (.loadRegs x) u = .next w ∧ ∀ r : Reg, r ≤ x → w.reg r = s.reg r

/-- A store by `Fx55`, `Fx33` or LOAD is seen by the very next fetch, with no barrier: the word fetched is made of the stored
bytes where the store covers `pc` or `pc + 1`, and of the old bytes where it does not, high byte first. The spec's decision
D16 (log entry 22); that LOAD may be issued here is D25 (log entry 15). -/
def Obligations.StoredBytesAreFetchedAtOnce : Prop :=
  ∀ s : State, s.pc.toNat + 1 < 4096 →
    (∀ x : Reg, s.I.toNat + x.val ≤ 4095 → ∃ t iw, exec (.storeRegs x) s = .next t ∧ t.fetchWord = some iw ∧
      iw = s.overlaid s.I.toNat (x.val + 1) (fun k => s.reg (Fin.ofNat 16 k)) s.pc.toNat ++
        s.overlaid s.I.toNat (x.val + 1) (fun k => s.reg (Fin.ofNat 16 k)) (s.pc.toNat + 1)) ∧
    (∀ x : Reg, s.I.toNat + 2 ≤ 4095 → ∃ t iw, exec (.ldB x) s = .next t ∧ t.fetchWord = some iw ∧
      iw = s.overlaid s.I.toNat 3 (fun k => BitVec.ofNat 8 ((s.reg x).toNat / 10 ^ (2 - k) % 10)) s.pc.toNat ++
        s.overlaid s.I.toNat 3 (fun k => BitVec.ofNat 8 ((s.reg x).toNat / 10 ^ (2 - k) % 10)) (s.pc.toNat + 1)) ∧
    (∀ image : List Byte, s.fault = none → image.length ≤ 3584 →
      ∃ t iw, command (.load image) s = (t, .done) ∧ t.fetchWord = some iw ∧
        iw = s.overlaid 0x200 image.length (fun k => image.getD k 0) s.pc.toNat ++
          s.overlaid 0x200 image.length (fun k => image.getD k 0) (s.pc.toNat + 1))

/-! ## Display -/

/-- R190: `00E0` leaves every cell unlit and changes nothing else. -/
def Obligations.ClearLeavesEveryCellUnlit : Prop :=
  decodeWord 0x00E0 = .ok .cls ∧
  ∀ s : State, ∃ t, exec .cls s = .next t ∧ (∀ r c, t.pixel r c = false) ∧ Frame { screen := true } s t

/-- `Dxyn` exclusive-ORs the `n`-row sprite at `I` into the framebuffer at column `Vx`, row `Vy`, wrapping each pixel, and sets
`VF` to 1 when a lit cell went out, else to 0; coordinates are the old register values. A sprite that reaches beyond 4095
raises `OutOfRange`; `n = 0` never does. Bit order, per-pixel wrap and `n = 0` are the spec's decisions D8, D9, D10
(log entry 12), reading coordinates before `VF` is written is D7 (log entry 6), and `I` unchanged is D12 (log entry 11). -/
def Obligations.DrawXorsTheSpriteAndReportsCollision : Prop :=
  ∀ (x y : Reg) (n : Nibble) (s : State),
    decodeWord (0xD#4 ++ regBits x ++ regBits y ++ n) = .ok (.drw x y n) ∧
    ((n = 0 ∨ s.I.toNat + n.toNat - 1 ≤ 4095) → ∃ t, exec (.drw x y n) s = .next t ∧
      (∀ r c, t.pixel r c = (s.pixel r c ^^ s.spriteAt (s.reg x) (s.reg y) n.toNat r c)) ∧
      ((t.reg VF = 1 ∧ ∃ r c, s.pixel r c = true ∧ t.pixel r c = false) ∨
        (t.reg VF = 0 ∧ ∀ r c, s.pixel r c = true → t.pixel r c = true)) ∧
      Frame { regs := [VF], screen := true } s t) ∧
    ((n ≠ 0 ∧ s.I.toNat + n.toNat - 1 > 4095) → ∃ fpc fiw, exec (.drw x y n) s = .fault (.outOfRange fpc fiw))

/-- Drawing the same sprite twice at the same place restores the framebuffer, and the second draw reports a collision
when a bit of the sprite landed on a cell the first draw lit. Rests on the spec's decisions D8 to D10 (log
entry 12). -/
def Obligations.DrawingTwiceRestoresTheFramebuffer : Prop :=
  ∀ (x y : Reg) (n : Nibble) (s t : State), exec (.drw x y n) s = .next t → t.reg x = s.reg x → t.reg y = s.reg y →
    ∃ u, exec (.drw x y n) t = .next u ∧ (∀ r c, u.pixel r c = s.pixel r c) ∧
      ((∃ r c, s.pixel r c = false ∧ t.pixel r c = true) → u.reg VF = 1)

/-! ## Keys and timers -/

/-- R200 and R201: `Ex9E` and `ExA1` skip on the level of the key numbered by the whole of `Vx`, change nothing else, and raise
`OutOfRange` when there is no such key. -/
def Obligations.KeySkipsTestTheLatch : Prop :=
  ∀ (x : Reg) (s : State),
    decodeWord (0xE#4 ++ regBits x ++ 0x9E#8) = .ok (.skp x) ∧
    decodeWord (0xE#4 ++ regBits x ++ 0xA1#8) = .ok (.sknp x) ∧
    (∀ k : Key, (s.reg x).toNat = k.val →
      (∃ t, exec (.skp x) s = .next t ∧ t.pc = (if s.key k = true then s.pc + 2 else s.pc) ∧ Frame { pc := true } s t) ∧
      (∃ t, exec (.sknp x) s = .next t ∧ t.pc = (if s.key k = false then s.pc + 2 else s.pc) ∧ Frame { pc := true } s t)) ∧
    ((s.reg x).toNat ≥ 16 →
      (∃ fpc fiw, exec (.skp x) s = .fault (.outOfRange fpc fiw)) ∧
      (∃ fpc fiw, exec (.sknp x) s = .fault (.outOfRange fpc fiw)))

/-- R202: `Fx0A` stores the highest-numbered key that is pressed in `Vx`, or, when none is, takes `pc` back by 2 and leaves the
rest; it always completes. -/
def Obligations.WaitForKeyStoresTheHighestPressed : Prop :=
  ∀ (x : Reg) (s : State),
    decodeWord (0xF#4 ++ regBits x ++ 0x0A#8) = .ok (.ldVxK x) ∧
    (∀ k : Key, s.key k = true → (∀ j : Key, k < j → s.key j = false) →
      ∃ t, exec (.ldVxK x) s = .next t ∧ (t.reg x).toNat = k.val ∧ Frame { regs := [x] } s t) ∧
    ((∀ k : Key, s.key k = false) → ∃ t, exec (.ldVxK x) s = .next t ∧ t.pc = s.pc - 2 ∧ Frame { pc := true } s t)

/-- R203 to R205: `Fx07` reads the delay timer into `Vx`, `Fx15` and `Fx18` write the timers from `Vx`; nothing else changes. -/
def Obligations.TimerInstructionsMoveOneByte : Prop :=
  ∀ (x : Reg) (s : State),
    decodeWord (0xF#4 ++ regBits x ++ 0x07#8) = .ok (.ldVxDT x) ∧
    decodeWord (0xF#4 ++ regBits x ++ 0x15#8) = .ok (.ldDTVx x) ∧
    decodeWord (0xF#4 ++ regBits x ++ 0x18#8) = .ok (.ldSTVx x) ∧
    (∃ t, exec (.ldVxDT x) s = .next t ∧ t.reg x = s.DT ∧ Frame { regs := [x] } s t) ∧
    (∃ t, exec (.ldDTVx x) s = .next t ∧ t.DT = s.reg x ∧ Frame { delay := true } s t) ∧
    (∃ t, exec (.ldSTVx x) s = .next t ∧ t.ST = s.reg x ∧ Frame { sound := true } s t)

/-! ## Reset and the host's commands -/

/-- What the core holds right after reset, as the spec's table gives it; the font is the parameter's default. -/
def Obligations.ResetValuesAreTheTables : Prop :=
  (∀ r, State.reset.reg r = 0) ∧ State.reset.pc = 0x200 ∧ State.reset.I = 0 ∧ State.reset.DT = 0 ∧ State.reset.ST = 0 ∧
  (∀ a : Fin 80, State.reset.byteAt a.val = State.reset.font[a.val]) ∧
  (∀ a, 80 ≤ a → a < 4096 → State.reset.byteAt a = 0) ∧ State.reset.sp = 0 ∧ (∀ k, State.reset.key k = false) ∧
  (∀ r c, State.reset.pixel r c = false) ∧ State.reset.fault = none

/-- RESET gives every piece of state its reset value, from any state, a faulted one included; bytes 0 to 79 of memory take
the font parameter, and the source of random bytes is not rewound. -/
def Obligations.ResetCommandRestoresEverything : Prop :=
  ∀ s : State, ∃ t, command .reset s = (t, .done) ∧
    (∀ r, t.reg r = 0) ∧ t.pc = 0x200 ∧ t.I = 0 ∧ t.DT = 0 ∧ t.ST = 0 ∧
    (∀ a : Fin 80, t.byteAt a.val = s.font[a.val]) ∧ (∀ a, 80 ≤ a → a < 4096 → t.byteAt a = 0) ∧ t.stack = [] ∧
    (∀ k, t.key k = false) ∧ (∀ r c, t.pixel r c = false) ∧ t.fault = none ∧ t.free = s.free ∧ t.font = s.font

/-- LOAD of at most 3584 bytes puts them at 0x200 and up and changes nothing else; a longer image leaves the core faulted
with `LoadOverflow`. When LOAD may be issued and that it faults the core are the spec's decisions D25 and D18
(log entry 15); the record set in the core is log entry 5. -/
def Obligations.LoadCopiesTheImageOrFaults : Prop :=
  ∀ (image : List Byte) (s : State), s.fault = none →
    (image.length ≤ 3584 → ∃ t, command (.load image) s = (t, .done) ∧
      (∀ (k : Nat) (b : Byte), image[k]? = some b → t.byteAt (0x200 + k) = b) ∧
      Frame { memBase := 0x200, memLen := image.length } s t) ∧
    (image.length > 3584 → ∃ t, command (.load image) s = (t, .failure .loadOverflow) ∧ t.fault = some .loadOverflow)

/-- SETKEY sets one latch and changes nothing else. That a larger key index cannot be presented is decision D19
(log entry 16). -/
def Obligations.SetKeySetsOneLatch : Prop :=
  ∀ (k : Key) (pressed : Bool) (s : State), s.fault = none →
    ∃ t, command (.setKey k pressed) s = (t, .done) ∧ t.key k = pressed ∧ (∀ j, j ≠ k → t.key j = s.key j) ∧
      { t with keys := s.keys } = s

/-- STEP as the host sees it: the 2048 cells after the instruction, row by row, or the failure indication, and then the core
is faulted with that record. The linear order of the cells is decision D17 (log entry 14). That the core is then
faulted is R246, decision D4, with the record set by the command (log entry 5). -/
def Obligations.StepReturnsTheFramebufferOrFails : Prop :=
  ∀ s : State, s.fault = none →
    (∀ t, step s = .next t → ∃ cells, command .step s = (t, .frame cells) ∧ cells.length = 2048 ∧
      ∀ (r : Fin 32) (c : Fin 64), cells[64 * r.val + c.val]? = some (t.pixel r c)) ∧
    (∀ f, step s = .fault f → ∃ t, command .step s = (t, .failure f) ∧ t.fault = some f)

/-- R228: TICK decrements each timer that is above 0, by itself, tells whether the sound timer was 1 before, and changes
nothing else. -/
def Obligations.TickCountsDownAndBeepsAtOne : Prop :=
  ∀ s : State, s.fault = none →
    ∃ t, command .tick s = (t, .beep (decide (s.ST = 1))) ∧ t.DT.toNat = s.DT.toNat - 1 ∧ t.ST.toNat = s.ST.toNat - 1 ∧
      Frame { delay := true, sound := true } s t

/-- Over any number of TICKs and no other command the timers fall to 0 and stay there, and the beep bit is 1 at the `ST`-th
TICK, the one that takes the sound timer from 1 to 0, and at no other: at none when `ST` is 0 or when fewer TICKs than `ST`
are issued. -/
def Obligations.BeepSoundsAtTheTickThatEndsTheSoundTimerOnly : Prop :=
  ∀ (n : Nat) (s : State), s.fault = none →
    (runCommands (List.replicate n .tick) s).2 =
      (List.range n).map (fun k => Output.beep (decide (k + 1 = s.ST.toNat))) ∧
    (runCommands (List.replicate n .tick) s).1.DT.toNat = s.DT.toNat - n ∧
    (runCommands (List.replicate n .tick) s).1.ST.toNat = s.ST.toNat - n

/-- A faulted core stays faulted, with the same record and the same failure indication for every command, until RESET. The
spec's decisions D4 and D20 (log entries 2 and 8). -/
def Obligations.FaultedCoreStaysFaultedUntilReset : Prop :=
  ∀ (cs : List Command) (s : State) (f : Fault), s.fault = some f → Command.reset ∉ cs →
    runCommands cs s = (s, List.replicate cs.length (.failure f)) ∧
    (command .reset s).1.fault = none
end

