-- ==== Sys2Proof/Laws/Decode.lean ====
section
/-! SUPPORT. The fields of an encoded word, one lemma per field and format, and the words back from their fields. -/

namespace Sys2Proof

@[simp] theorem regOf_regBits (x : Reg) : regOf (regBits x) = x := rfl

@[simp] theorem regBits_regOf (f : Nibble) : regBits (regOf f) = f := rfl

theorem encodeNNN_toNat (d1 : Nibble) (nnn : Addr12) : (encodeNNN d1 nnn).toNat = d1.toNat * 4096 + nnn.toNat := by
  have h : encodeNNN d1 nnn = (d1 ++ nnn : BitVec (4 + 12)) := rfl
  rw [h, BitVec.toNat_append, ← Nat.shiftLeft_add_eq_or_of_lt nnn.isLt, Nat.shiftLeft_eq]

theorem encodeXKK_toNat (d1 : Nibble) (x : Reg) (kk : Byte) :
    (encodeXKK d1 x kk).toNat = d1.toNat * 4096 + x.val * 256 + kk.toNat := by
  have h : encodeXKK d1 x kk = (d1 ++ regBits x ++ kk : BitVec (4 + 4 + 8)) := rfl
  rw [h, BitVec.toNat_append, ← Nat.shiftLeft_add_eq_or_of_lt kk.isLt, Nat.shiftLeft_eq, BitVec.toNat_append,
    ← Nat.shiftLeft_add_eq_or_of_lt (regBits x).isLt, Nat.shiftLeft_eq]
  have : (regBits x).toNat = x.val := rfl
  omega

theorem encodeXYN_toNat (d1 : Nibble) (x y : Reg) (d4 : Nibble) :
    (encodeXYN d1 x y d4).toNat = d1.toNat * 4096 + x.val * 256 + y.val * 16 + d4.toNat := by
  have h : encodeXYN d1 x y d4 = (d1 ++ regBits x ++ regBits y ++ d4 : BitVec (4 + 4 + 4 + 4)) := rfl
  rw [h, BitVec.toNat_append, ← Nat.shiftLeft_add_eq_or_of_lt d4.isLt, Nat.shiftLeft_eq, BitVec.toNat_append,
    ← Nat.shiftLeft_add_eq_or_of_lt (regBits y).isLt, Nat.shiftLeft_eq, BitVec.toNat_append,
    ← Nat.shiftLeft_add_eq_or_of_lt (regBits x).isLt, Nat.shiftLeft_eq]
  have : (regBits x).toNat = x.val := rfl
  have : (regBits y).toNat = y.val := rfl
  omega

theorem fieldD1_toNat (iw : Word) : (fieldD1 iw).toNat = iw.toNat / 4096 := by
  have := iw.isLt
  simp only [fieldD1, BitVec.extractLsb'_toNat, Nat.shiftRight_eq_div_pow]
  omega

theorem fieldX_val (iw : Word) : (fieldX iw).val = iw.toNat / 256 % 16 := by
  show (iw.extractLsb' 8 4).toNat = _
  simp only [BitVec.extractLsb'_toNat, Nat.shiftRight_eq_div_pow]

theorem fieldY_val (iw : Word) : (fieldY iw).val = iw.toNat / 16 % 16 := by
  show (iw.extractLsb' 4 4).toNat = _
  simp only [BitVec.extractLsb'_toNat, Nat.shiftRight_eq_div_pow]

theorem fieldN_toNat (iw : Word) : (fieldN iw).toNat = iw.toNat % 16 := by
  simp only [fieldN, BitVec.extractLsb'_toNat, Nat.shiftRight_zero]

theorem fieldKK_toNat (iw : Word) : (fieldKK iw).toNat = iw.toNat % 256 := by
  simp only [fieldKK, BitVec.extractLsb'_toNat, Nat.shiftRight_zero]

theorem fieldNNN_toNat (iw : Word) : (fieldNNN iw).toNat = iw.toNat % 4096 := by
  simp only [fieldNNN, BitVec.extractLsb'_toNat, Nat.shiftRight_zero]

/-! ### Fields of a word in format `NNN` -/

@[simp] theorem fieldD1_encodeNNN (d1 : Nibble) (nnn : Addr12) : fieldD1 (encodeNNN d1 nnn) = d1 := by
  apply BitVec.eq_of_toNat_eq
  have := nnn.isLt
  rw [fieldD1_toNat, encodeNNN_toNat]; omega

@[simp] theorem fieldNNN_encodeNNN (d1 : Nibble) (nnn : Addr12) : fieldNNN (encodeNNN d1 nnn) = nnn := by
  apply BitVec.eq_of_toNat_eq
  have := nnn.isLt
  rw [fieldNNN_toNat, encodeNNN_toNat]; omega

/-! ### Fields of a word in formats `XKK` and `X` -/

@[simp] theorem fieldD1_encodeXKK (d1 : Nibble) (x : Reg) (kk : Byte) : fieldD1 (encodeXKK d1 x kk) = d1 := by
  apply BitVec.eq_of_toNat_eq
  have := kk.isLt; have := x.isLt
  rw [fieldD1_toNat, encodeXKK_toNat]; omega

@[simp] theorem fieldX_encodeXKK (d1 : Nibble) (x : Reg) (kk : Byte) : fieldX (encodeXKK d1 x kk) = x := by
  apply Fin.ext
  have := kk.isLt; have := x.isLt
  rw [fieldX_val, encodeXKK_toNat]; omega

@[simp] theorem fieldKK_encodeXKK (d1 : Nibble) (x : Reg) (kk : Byte) : fieldKK (encodeXKK d1 x kk) = kk := by
  apply BitVec.eq_of_toNat_eq
  have := kk.isLt
  rw [fieldKK_toNat, encodeXKK_toNat]; omega

/-! ### Fields of a word in formats `XY` and `XYN` -/

@[simp] theorem fieldD1_encodeXYN (d1 : Nibble) (x y : Reg) (d4 : Nibble) : fieldD1 (encodeXYN d1 x y d4) = d1 := by
  apply BitVec.eq_of_toNat_eq
  have := d4.isLt; have := x.isLt; have := y.isLt
  rw [fieldD1_toNat, encodeXYN_toNat]; omega

@[simp] theorem fieldX_encodeXYN (d1 : Nibble) (x y : Reg) (d4 : Nibble) : fieldX (encodeXYN d1 x y d4) = x := by
  apply Fin.ext
  have := d4.isLt; have := x.isLt; have := y.isLt
  rw [fieldX_val, encodeXYN_toNat]; omega

@[simp] theorem fieldY_encodeXYN (d1 : Nibble) (x y : Reg) (d4 : Nibble) : fieldY (encodeXYN d1 x y d4) = y := by
  apply Fin.ext
  have := d4.isLt; have := y.isLt
  rw [fieldY_val, encodeXYN_toNat]; omega

@[simp] theorem fieldN_encodeXYN (d1 : Nibble) (x y : Reg) (d4 : Nibble) : fieldN (encodeXYN d1 x y d4) = d4 := by
  apply BitVec.eq_of_toNat_eq
  have := d4.isLt
  rw [fieldN_toNat, encodeXYN_toNat]; omega

/-! ### A word from its fields -/

theorem encodeNNN_fields (iw : Word) : encodeNNN (fieldD1 iw) (fieldNNN iw) = iw := by
  apply BitVec.eq_of_toNat_eq
  rw [encodeNNN_toNat, fieldD1_toNat, fieldNNN_toNat]; omega

theorem encodeXKK_fields (iw : Word) : encodeXKK (fieldD1 iw) (fieldX iw) (fieldKK iw) = iw := by
  apply BitVec.eq_of_toNat_eq
  rw [encodeXKK_toNat, fieldD1_toNat, fieldX_val, fieldKK_toNat]; omega

theorem encodeXYN_fields (iw : Word) : encodeXYN (fieldD1 iw) (fieldX iw) (fieldY iw) (fieldN iw) = iw := by
  apply BitVec.eq_of_toNat_eq
  rw [encodeXYN_toNat, fieldD1_toNat, fieldX_val, fieldY_val, fieldN_toNat]; omega

/-! ### Bytes -/

theorem wordOfBytes_bytesOfWord (iw : Word) : wordOfBytes (iw.extractLsb' 8 8) (iw.extractLsb' 0 8) = iw := by
  have h : wordOfBytes (iw.extractLsb' 8 8) (iw.extractLsb' 0 8)
      = (iw.extractLsb' 8 8 ++ iw.extractLsb' 0 8 : BitVec (8 + 8)) := rfl
  apply BitVec.eq_of_toNat_eq
  have := iw.isLt
  rw [h, BitVec.toNat_append, ← Nat.shiftLeft_add_eq_or_of_lt (iw.extractLsb' 0 8).isLt, Nat.shiftLeft_eq]
  simp only [BitVec.extractLsb'_toNat, Nat.shiftRight_eq_div_pow]
  omega

end Sys2Proof
end

