-- ==== Sys2Proof/Laws/Memory.lean ====
section
/-! SUPPORT. The laws of memory: what a read gives after a write, and that every operation keeps the canonical form. -/

namespace Sys2Proof.Machine

theorem Memory.lookup_erase_self (m : List Host.Cell) (a : Nat) : Memory.lookup (Memory.erase m a) a = none := by
  induction m with
  | nil => rfl
  | cons c m ih =>
    simp only [Memory.erase]
    split
    · exact ih
    · simp_all [Memory.lookup]

theorem Memory.lookup_erase_ne (m : List Host.Cell) {a c : Nat} (h : c ≠ a) :
    Memory.lookup (Memory.erase m a) c = Memory.lookup m c := by
  induction m with
  | nil => rfl
  | cons d m ih =>
    simp only [Memory.erase, Memory.lookup]
    split
    · rename_i e; subst e; simp [h, ih]
    · simp [Memory.lookup, ih]

theorem Memory.lookup_insert_self (m : List Host.Cell) (a : Nat) (b : Byte) :
    Memory.lookup (Memory.insert m a b) a = some b := by
  induction m with
  | nil => simp [Memory.insert, Memory.lookup]
  | cons c m ih =>
    simp only [Memory.insert]
    split
    · simp [Memory.lookup]
    · split <;> simp_all [Memory.lookup]

theorem Memory.lookup_insert_ne (m : List Host.Cell) {a c : Nat} (b : Byte) (h : c ≠ a) :
    Memory.lookup (Memory.insert m a b) c = Memory.lookup m c := by
  induction m with
  | nil => simp [Memory.insert, Memory.lookup, h]
  | cons d m ih =>
    simp only [Memory.insert]
    split
    · simp [Memory.lookup, h]
    · split
      · rename_i e; subst e; simp [Memory.lookup, h]
      · simp [Memory.lookup, ih]

/-- A read of the byte written gives the value written. -/
@[simp] theorem Memory.read_write_self (font : Vector Byte 80) (m : List Host.Cell) (a : Nat) (b : Byte) :
    Memory.read font (Memory.write font m a b) a = b := by
  unfold Memory.read Memory.write
  split
  · rename_i h; simp [Memory.lookup_erase_self, h]
  · simp [Memory.lookup_insert_self]

/-- A write leaves every other byte alone. -/
theorem Memory.read_write_ne (font : Vector Byte 80) (m : List Host.Cell) {a c : Nat} (b : Byte) (h : c ≠ a) :
    Memory.read font (Memory.write font m a b) c = Memory.read font m c := by
  unfold Memory.read Memory.write
  split
  · rw [Memory.lookup_erase_ne m h]
  · rw [Memory.lookup_insert_ne m b h]

@[simp] theorem Memory.read_nil (font : Vector Byte 80) (a : Nat) : Memory.read font [] a = unlistedByte font a := rfl

theorem unlistedByte_font (font : Vector Byte 80) (a : Fin 80) : unlistedByte font a.val = font[a.val] := by
  simp [unlistedByte]

theorem unlistedByte_zero (font : Vector Byte 80) {a : Nat} (h : 80 ≤ a) : unlistedByte font a = 0 := by
  simp [unlistedByte, show ¬ a < 80 by omega]

/-- The canonical form, clause by clause. -/
theorem Memory.wf_iff (font : Vector Byte 80) (m : List Host.Cell) :
    Memory.wf font m = true ↔
      m.Pairwise (fun c d => c.1 < d.1) ∧ ∀ c ∈ m, c.1 < 4096 ∧ c.2 ≠ unlistedByte font c.1 := by
  simp [Memory.wf]

theorem Memory.mem_erase {m : List Host.Cell} {a : Nat} {c : Host.Cell} (h : c ∈ Memory.erase m a) : c ∈ m := by
  induction m with
  | nil => simp [Memory.erase] at h
  | cons d m ih =>
    simp only [Memory.erase] at h
    split at h
    · exact List.mem_cons_of_mem _ (ih h)
    · rcases List.mem_cons.1 h with h | h
      · exact h ▸ List.mem_cons_self
      · exact List.mem_cons_of_mem _ (ih h)

theorem Memory.mem_insert {m : List Host.Cell} {a : Nat} {b : Byte} {c : Host.Cell} (h : c ∈ Memory.insert m a b) :
    c = (a, b) ∨ c ∈ m := by
  induction m with
  | nil => simpa [Memory.insert] using h
  | cons d m ih =>
    simp only [Memory.insert] at h
    split at h
    · simpa using h
    · split at h
      · rcases List.mem_cons.1 h with h | h
        · exact .inl h
        · exact .inr (List.mem_cons_of_mem _ h)
      · rcases List.mem_cons.1 h with h | h
        · exact .inr (h ▸ List.mem_cons_self)
        · exact (ih h).imp id (List.mem_cons_of_mem _)

theorem Memory.sorted_erase {m : List Host.Cell} (a : Nat) (h : m.Pairwise fun c d => c.1 < d.1) :
    (Memory.erase m a).Pairwise fun c d => c.1 < d.1 := by
  induction m with
  | nil => exact .nil
  | cons d m ih =>
    rw [List.pairwise_cons] at h
    simp only [Memory.erase]
    split
    · exact ih h.2
    · exact List.pairwise_cons.2 ⟨fun c hc => h.1 c (Memory.mem_erase hc), ih h.2⟩

theorem Memory.sorted_insert {m : List Host.Cell} (a : Nat) (b : Byte) (h : m.Pairwise fun c d => c.1 < d.1) :
    (Memory.insert m a b).Pairwise fun c d => c.1 < d.1 := by
  induction m with
  | nil => simp [Memory.insert]
  | cons d m ih =>
    have h' := List.pairwise_cons.1 h
    simp only [Memory.insert]
    split
    · rename_i hlt
      refine List.pairwise_cons.2 ⟨fun c hc => ?_, h⟩
      rcases List.mem_cons.1 hc with hc | hc
      · exact hc ▸ hlt
      · exact Nat.lt_trans hlt (h'.1 c hc)
    · split
      · rename_i heq
        exact List.pairwise_cons.2 ⟨fun c hc => by simpa [heq] using h'.1 c hc, h'.2⟩
      · refine List.pairwise_cons.2 ⟨fun c hc => ?_, ih h'.2⟩
        rcases Memory.mem_insert hc with hc | hc
        · subst hc; simp; omega
        · exact h'.1 c hc

/-- A write inside memory keeps the canonical form. -/
theorem Memory.wf_write {font : Vector Byte 80} {m : List Host.Cell} {a : Nat} (b : Byte) (ha : a < 4096)
    (h : Memory.wf font m = true) : Memory.wf font (Memory.write font m a b) = true := by
  rw [Memory.wf_iff] at h ⊢
  unfold Memory.write
  split
  · exact ⟨Memory.sorted_erase a h.1, fun c hc => h.2 c (Memory.mem_erase hc)⟩
  · rename_i hb
    refine ⟨Memory.sorted_insert a b h.1, fun c hc => ?_⟩
    rcases Memory.mem_insert hc with hc | hc
    · subst hc; exact ⟨ha, hb⟩
    · exact h.2 c hc

/-- Reset's memory, which lists nothing, is canonical. -/
@[simp] theorem Memory.wf_nil (font : Vector Byte 80) : Memory.wf font [] = true := rfl

/-- The list made of 4096 given bytes is canonical. -/
theorem Memory.wf_ofBytes (font : Vector Byte 80) (bytes : Vector Byte 4096) :
    Memory.wf font (Memory.ofBytes font bytes) = true := by
  rw [Memory.wf_iff]
  refine ⟨?_, fun c hc => ?_⟩
  · refine List.Pairwise.filterMap _ ?_ (List.pairwise_lt_finRange 4096)
    intro a a' haa c hc c' hc'
    simp only [Option.ite_none_left_eq_some, Option.some.injEq] at hc hc'
    rw [← hc.2, ← hc'.2]
    exact haa
  · obtain ⟨a, -, ha⟩ := List.mem_filterMap.1 hc
    simp only [Option.ite_none_left_eq_some, Option.some.injEq] at ha
    rw [← ha.2]
    exact ⟨a.isLt, ha.1⟩

end Sys2Proof.Machine
end

