-- ==== Sys2Proof/Laws/State.lean ====
section
/-! SUPPORT. What each update does to each field and to each reader of the state: one lemma per field per update, true by
`rfl`, so that no later proof unfolds a record update. -/

namespace Sys2Proof.Machine

/-! ### setReg -/

@[simp] theorem State.setReg_V (s : State) (x : Reg) (v : Byte) : (s.setReg x v).V = s.V.set x.val v := rfl
@[simp] theorem State.setReg_pc (s : State) (x : Reg) (v : Byte) : (s.setReg x v).pc = s.pc := rfl
@[simp] theorem State.setReg_I (s : State) (x : Reg) (v : Byte) : (s.setReg x v).I = s.I := rfl
@[simp] theorem State.setReg_DT (s : State) (x : Reg) (v : Byte) : (s.setReg x v).DT = s.DT := rfl
@[simp] theorem State.setReg_ST (s : State) (x : Reg) (v : Byte) : (s.setReg x v).ST = s.ST := rfl
@[simp] theorem State.setReg_mem (s : State) (x : Reg) (v : Byte) : (s.setReg x v).mem = s.mem := rfl
@[simp] theorem State.setReg_stack (s : State) (x : Reg) (v : Byte) : (s.setReg x v).stack = s.stack := rfl
@[simp] theorem State.setReg_keys (s : State) (x : Reg) (v : Byte) : (s.setReg x v).keys = s.keys := rfl
@[simp] theorem State.setReg_fb (s : State) (x : Reg) (v : Byte) : (s.setReg x v).fb = s.fb := rfl
@[simp] theorem State.setReg_fault (s : State) (x : Reg) (v : Byte) : (s.setReg x v).fault = s.fault := rfl
@[simp] theorem State.setReg_font (s : State) (x : Reg) (v : Byte) : (s.setReg x v).font = s.font := rfl
@[simp] theorem State.setReg_free (s : State) (x : Reg) (v : Byte) : (s.setReg x v).free = s.free := rfl
@[simp] theorem State.setReg_byteAt (s : State) (x : Reg) (v : Byte) (c : Nat) : (s.setReg x v).byteAt c = s.byteAt c := rfl
@[simp] theorem State.setReg_pixel (s : State) (x : Reg) (v : Byte) (r : Fin 32) (c : Fin 64) : (s.setReg x v).pixel r c = s.pixel r c := rfl
@[simp] theorem State.setReg_key (s : State) (x : Reg) (v : Byte) (j : Key) : (s.setReg x v).key j = s.key j := rfl
@[simp] theorem State.setReg_sp (s : State) (x : Reg) (v : Byte) : (s.setReg x v).sp = s.sp := rfl
@[simp] theorem State.setReg_dataAddr (s : State) (x : Reg) (v : Byte) (o : Nat) : (s.setReg x v).dataAddr o = s.dataAddr o := rfl

/-! ### setRegsUpTo -/

@[simp] theorem State.setRegsUpTo_V (s : State) (x : Reg) (f : Nat → Byte) : (s.setRegsUpTo x f).V = Vector.ofFn fun i : Fin 16 => if i ≤ x then f i.val else s.V[i.val] := rfl
@[simp] theorem State.setRegsUpTo_pc (s : State) (x : Reg) (f : Nat → Byte) : (s.setRegsUpTo x f).pc = s.pc := rfl
@[simp] theorem State.setRegsUpTo_I (s : State) (x : Reg) (f : Nat → Byte) : (s.setRegsUpTo x f).I = s.I := rfl
@[simp] theorem State.setRegsUpTo_DT (s : State) (x : Reg) (f : Nat → Byte) : (s.setRegsUpTo x f).DT = s.DT := rfl
@[simp] theorem State.setRegsUpTo_ST (s : State) (x : Reg) (f : Nat → Byte) : (s.setRegsUpTo x f).ST = s.ST := rfl
@[simp] theorem State.setRegsUpTo_mem (s : State) (x : Reg) (f : Nat → Byte) : (s.setRegsUpTo x f).mem = s.mem := rfl
@[simp] theorem State.setRegsUpTo_stack (s : State) (x : Reg) (f : Nat → Byte) : (s.setRegsUpTo x f).stack = s.stack := rfl
@[simp] theorem State.setRegsUpTo_keys (s : State) (x : Reg) (f : Nat → Byte) : (s.setRegsUpTo x f).keys = s.keys := rfl
@[simp] theorem State.setRegsUpTo_fb (s : State) (x : Reg) (f : Nat → Byte) : (s.setRegsUpTo x f).fb = s.fb := rfl
@[simp] theorem State.setRegsUpTo_fault (s : State) (x : Reg) (f : Nat → Byte) : (s.setRegsUpTo x f).fault = s.fault := rfl
@[simp] theorem State.setRegsUpTo_font (s : State) (x : Reg) (f : Nat → Byte) : (s.setRegsUpTo x f).font = s.font := rfl
@[simp] theorem State.setRegsUpTo_free (s : State) (x : Reg) (f : Nat → Byte) : (s.setRegsUpTo x f).free = s.free := rfl
@[simp] theorem State.setRegsUpTo_byteAt (s : State) (x : Reg) (f : Nat → Byte) (c : Nat) : (s.setRegsUpTo x f).byteAt c = s.byteAt c := rfl
@[simp] theorem State.setRegsUpTo_pixel (s : State) (x : Reg) (f : Nat → Byte) (r : Fin 32) (c : Fin 64) : (s.setRegsUpTo x f).pixel r c = s.pixel r c := rfl
@[simp] theorem State.setRegsUpTo_key (s : State) (x : Reg) (f : Nat → Byte) (j : Key) : (s.setRegsUpTo x f).key j = s.key j := rfl
@[simp] theorem State.setRegsUpTo_sp (s : State) (x : Reg) (f : Nat → Byte) : (s.setRegsUpTo x f).sp = s.sp := rfl
@[simp] theorem State.setRegsUpTo_dataAddr (s : State) (x : Reg) (f : Nat → Byte) (o : Nat) : (s.setRegsUpTo x f).dataAddr o = s.dataAddr o := rfl

/-! ### setPc -/

@[simp] theorem State.setPc_V (s : State) (a : Word) : (s.setPc a).V = s.V := rfl
@[simp] theorem State.setPc_pc (s : State) (a : Word) : (s.setPc a).pc = a := rfl
@[simp] theorem State.setPc_I (s : State) (a : Word) : (s.setPc a).I = s.I := rfl
@[simp] theorem State.setPc_DT (s : State) (a : Word) : (s.setPc a).DT = s.DT := rfl
@[simp] theorem State.setPc_ST (s : State) (a : Word) : (s.setPc a).ST = s.ST := rfl
@[simp] theorem State.setPc_mem (s : State) (a : Word) : (s.setPc a).mem = s.mem := rfl
@[simp] theorem State.setPc_stack (s : State) (a : Word) : (s.setPc a).stack = s.stack := rfl
@[simp] theorem State.setPc_keys (s : State) (a : Word) : (s.setPc a).keys = s.keys := rfl
@[simp] theorem State.setPc_fb (s : State) (a : Word) : (s.setPc a).fb = s.fb := rfl
@[simp] theorem State.setPc_fault (s : State) (a : Word) : (s.setPc a).fault = s.fault := rfl
@[simp] theorem State.setPc_font (s : State) (a : Word) : (s.setPc a).font = s.font := rfl
@[simp] theorem State.setPc_free (s : State) (a : Word) : (s.setPc a).free = s.free := rfl
@[simp] theorem State.setPc_reg (s : State) (a : Word) (r : Reg) : (s.setPc a).reg r = s.reg r := rfl
@[simp] theorem State.setPc_byteAt (s : State) (a : Word) (c : Nat) : (s.setPc a).byteAt c = s.byteAt c := rfl
@[simp] theorem State.setPc_pixel (s : State) (a : Word) (r : Fin 32) (c : Fin 64) : (s.setPc a).pixel r c = s.pixel r c := rfl
@[simp] theorem State.setPc_key (s : State) (a : Word) (j : Key) : (s.setPc a).key j = s.key j := rfl
@[simp] theorem State.setPc_sp (s : State) (a : Word) : (s.setPc a).sp = s.sp := rfl
@[simp] theorem State.setPc_dataAddr (s : State) (a : Word) (o : Nat) : (s.setPc a).dataAddr o = s.dataAddr o := rfl

/-! ### advance -/

@[simp] theorem State.advance_V (s : State) : (s.advance).V = s.V := rfl
@[simp] theorem State.advance_pc (s : State) : (s.advance).pc = s.pc + 2 := rfl
@[simp] theorem State.advance_I (s : State) : (s.advance).I = s.I := rfl
@[simp] theorem State.advance_DT (s : State) : (s.advance).DT = s.DT := rfl
@[simp] theorem State.advance_ST (s : State) : (s.advance).ST = s.ST := rfl
@[simp] theorem State.advance_mem (s : State) : (s.advance).mem = s.mem := rfl
@[simp] theorem State.advance_stack (s : State) : (s.advance).stack = s.stack := rfl
@[simp] theorem State.advance_keys (s : State) : (s.advance).keys = s.keys := rfl
@[simp] theorem State.advance_fb (s : State) : (s.advance).fb = s.fb := rfl
@[simp] theorem State.advance_fault (s : State) : (s.advance).fault = s.fault := rfl
@[simp] theorem State.advance_font (s : State) : (s.advance).font = s.font := rfl
@[simp] theorem State.advance_free (s : State) : (s.advance).free = s.free := rfl
@[simp] theorem State.advance_reg (s : State) (r : Reg) : (s.advance).reg r = s.reg r := rfl
@[simp] theorem State.advance_byteAt (s : State) (c : Nat) : (s.advance).byteAt c = s.byteAt c := rfl
@[simp] theorem State.advance_pixel (s : State) (r : Fin 32) (c : Fin 64) : (s.advance).pixel r c = s.pixel r c := rfl
@[simp] theorem State.advance_key (s : State) (j : Key) : (s.advance).key j = s.key j := rfl
@[simp] theorem State.advance_sp (s : State) : (s.advance).sp = s.sp := rfl
@[simp] theorem State.advance_dataAddr (s : State) (o : Nat) : (s.advance).dataAddr o = s.dataAddr o := rfl

/-! ### setI -/

@[simp] theorem State.setI_V (s : State) (a : Word) : (s.setI a).V = s.V := rfl
@[simp] theorem State.setI_pc (s : State) (a : Word) : (s.setI a).pc = s.pc := rfl
@[simp] theorem State.setI_I (s : State) (a : Word) : (s.setI a).I = a := rfl
@[simp] theorem State.setI_DT (s : State) (a : Word) : (s.setI a).DT = s.DT := rfl
@[simp] theorem State.setI_ST (s : State) (a : Word) : (s.setI a).ST = s.ST := rfl
@[simp] theorem State.setI_mem (s : State) (a : Word) : (s.setI a).mem = s.mem := rfl
@[simp] theorem State.setI_stack (s : State) (a : Word) : (s.setI a).stack = s.stack := rfl
@[simp] theorem State.setI_keys (s : State) (a : Word) : (s.setI a).keys = s.keys := rfl
@[simp] theorem State.setI_fb (s : State) (a : Word) : (s.setI a).fb = s.fb := rfl
@[simp] theorem State.setI_fault (s : State) (a : Word) : (s.setI a).fault = s.fault := rfl
@[simp] theorem State.setI_font (s : State) (a : Word) : (s.setI a).font = s.font := rfl
@[simp] theorem State.setI_free (s : State) (a : Word) : (s.setI a).free = s.free := rfl
@[simp] theorem State.setI_reg (s : State) (a : Word) (r : Reg) : (s.setI a).reg r = s.reg r := rfl
@[simp] theorem State.setI_byteAt (s : State) (a : Word) (c : Nat) : (s.setI a).byteAt c = s.byteAt c := rfl
@[simp] theorem State.setI_pixel (s : State) (a : Word) (r : Fin 32) (c : Fin 64) : (s.setI a).pixel r c = s.pixel r c := rfl
@[simp] theorem State.setI_key (s : State) (a : Word) (j : Key) : (s.setI a).key j = s.key j := rfl
@[simp] theorem State.setI_sp (s : State) (a : Word) : (s.setI a).sp = s.sp := rfl

/-! ### setDT -/

@[simp] theorem State.setDT_V (s : State) (v : Byte) : (s.setDT v).V = s.V := rfl
@[simp] theorem State.setDT_pc (s : State) (v : Byte) : (s.setDT v).pc = s.pc := rfl
@[simp] theorem State.setDT_I (s : State) (v : Byte) : (s.setDT v).I = s.I := rfl
@[simp] theorem State.setDT_DT (s : State) (v : Byte) : (s.setDT v).DT = v := rfl
@[simp] theorem State.setDT_ST (s : State) (v : Byte) : (s.setDT v).ST = s.ST := rfl
@[simp] theorem State.setDT_mem (s : State) (v : Byte) : (s.setDT v).mem = s.mem := rfl
@[simp] theorem State.setDT_stack (s : State) (v : Byte) : (s.setDT v).stack = s.stack := rfl
@[simp] theorem State.setDT_keys (s : State) (v : Byte) : (s.setDT v).keys = s.keys := rfl
@[simp] theorem State.setDT_fb (s : State) (v : Byte) : (s.setDT v).fb = s.fb := rfl
@[simp] theorem State.setDT_fault (s : State) (v : Byte) : (s.setDT v).fault = s.fault := rfl
@[simp] theorem State.setDT_font (s : State) (v : Byte) : (s.setDT v).font = s.font := rfl
@[simp] theorem State.setDT_free (s : State) (v : Byte) : (s.setDT v).free = s.free := rfl
@[simp] theorem State.setDT_reg (s : State) (v : Byte) (r : Reg) : (s.setDT v).reg r = s.reg r := rfl
@[simp] theorem State.setDT_byteAt (s : State) (v : Byte) (c : Nat) : (s.setDT v).byteAt c = s.byteAt c := rfl
@[simp] theorem State.setDT_pixel (s : State) (v : Byte) (r : Fin 32) (c : Fin 64) : (s.setDT v).pixel r c = s.pixel r c := rfl
@[simp] theorem State.setDT_key (s : State) (v : Byte) (j : Key) : (s.setDT v).key j = s.key j := rfl
@[simp] theorem State.setDT_sp (s : State) (v : Byte) : (s.setDT v).sp = s.sp := rfl
@[simp] theorem State.setDT_dataAddr (s : State) (v : Byte) (o : Nat) : (s.setDT v).dataAddr o = s.dataAddr o := rfl

/-! ### setST -/

@[simp] theorem State.setST_V (s : State) (v : Byte) : (s.setST v).V = s.V := rfl
@[simp] theorem State.setST_pc (s : State) (v : Byte) : (s.setST v).pc = s.pc := rfl
@[simp] theorem State.setST_I (s : State) (v : Byte) : (s.setST v).I = s.I := rfl
@[simp] theorem State.setST_DT (s : State) (v : Byte) : (s.setST v).DT = s.DT := rfl
@[simp] theorem State.setST_ST (s : State) (v : Byte) : (s.setST v).ST = v := rfl
@[simp] theorem State.setST_mem (s : State) (v : Byte) : (s.setST v).mem = s.mem := rfl
@[simp] theorem State.setST_stack (s : State) (v : Byte) : (s.setST v).stack = s.stack := rfl
@[simp] theorem State.setST_keys (s : State) (v : Byte) : (s.setST v).keys = s.keys := rfl
@[simp] theorem State.setST_fb (s : State) (v : Byte) : (s.setST v).fb = s.fb := rfl
@[simp] theorem State.setST_fault (s : State) (v : Byte) : (s.setST v).fault = s.fault := rfl
@[simp] theorem State.setST_font (s : State) (v : Byte) : (s.setST v).font = s.font := rfl
@[simp] theorem State.setST_free (s : State) (v : Byte) : (s.setST v).free = s.free := rfl
@[simp] theorem State.setST_reg (s : State) (v : Byte) (r : Reg) : (s.setST v).reg r = s.reg r := rfl
@[simp] theorem State.setST_byteAt (s : State) (v : Byte) (c : Nat) : (s.setST v).byteAt c = s.byteAt c := rfl
@[simp] theorem State.setST_pixel (s : State) (v : Byte) (r : Fin 32) (c : Fin 64) : (s.setST v).pixel r c = s.pixel r c := rfl
@[simp] theorem State.setST_key (s : State) (v : Byte) (j : Key) : (s.setST v).key j = s.key j := rfl
@[simp] theorem State.setST_sp (s : State) (v : Byte) : (s.setST v).sp = s.sp := rfl
@[simp] theorem State.setST_dataAddr (s : State) (v : Byte) (o : Nat) : (s.setST v).dataAddr o = s.dataAddr o := rfl

/-! ### setByte -/

@[simp] theorem State.setByte_V (s : State) (a : Nat) (b : Byte) : (s.setByte a b).V = s.V := rfl
@[simp] theorem State.setByte_pc (s : State) (a : Nat) (b : Byte) : (s.setByte a b).pc = s.pc := rfl
@[simp] theorem State.setByte_I (s : State) (a : Nat) (b : Byte) : (s.setByte a b).I = s.I := rfl
@[simp] theorem State.setByte_DT (s : State) (a : Nat) (b : Byte) : (s.setByte a b).DT = s.DT := rfl
@[simp] theorem State.setByte_ST (s : State) (a : Nat) (b : Byte) : (s.setByte a b).ST = s.ST := rfl
@[simp] theorem State.setByte_mem (s : State) (a : Nat) (b : Byte) : (s.setByte a b).mem = Memory.write s.font s.mem a b := rfl
@[simp] theorem State.setByte_stack (s : State) (a : Nat) (b : Byte) : (s.setByte a b).stack = s.stack := rfl
@[simp] theorem State.setByte_keys (s : State) (a : Nat) (b : Byte) : (s.setByte a b).keys = s.keys := rfl
@[simp] theorem State.setByte_fb (s : State) (a : Nat) (b : Byte) : (s.setByte a b).fb = s.fb := rfl
@[simp] theorem State.setByte_fault (s : State) (a : Nat) (b : Byte) : (s.setByte a b).fault = s.fault := rfl
@[simp] theorem State.setByte_font (s : State) (a : Nat) (b : Byte) : (s.setByte a b).font = s.font := rfl
@[simp] theorem State.setByte_free (s : State) (a : Nat) (b : Byte) : (s.setByte a b).free = s.free := rfl
@[simp] theorem State.setByte_reg (s : State) (a : Nat) (b : Byte) (r : Reg) : (s.setByte a b).reg r = s.reg r := rfl
@[simp] theorem State.setByte_pixel (s : State) (a : Nat) (b : Byte) (r : Fin 32) (c : Fin 64) : (s.setByte a b).pixel r c = s.pixel r c := rfl
@[simp] theorem State.setByte_key (s : State) (a : Nat) (b : Byte) (j : Key) : (s.setByte a b).key j = s.key j := rfl
@[simp] theorem State.setByte_sp (s : State) (a : Nat) (b : Byte) : (s.setByte a b).sp = s.sp := rfl
@[simp] theorem State.setByte_dataAddr (s : State) (a : Nat) (b : Byte) (o : Nat) : (s.setByte a b).dataAddr o = s.dataAddr o := rfl

/-! ### setScreen -/

@[simp] theorem State.setScreen_V (s : State) (fb : Screen) : (s.setScreen fb).V = s.V := rfl
@[simp] theorem State.setScreen_pc (s : State) (fb : Screen) : (s.setScreen fb).pc = s.pc := rfl
@[simp] theorem State.setScreen_I (s : State) (fb : Screen) : (s.setScreen fb).I = s.I := rfl
@[simp] theorem State.setScreen_DT (s : State) (fb : Screen) : (s.setScreen fb).DT = s.DT := rfl
@[simp] theorem State.setScreen_ST (s : State) (fb : Screen) : (s.setScreen fb).ST = s.ST := rfl
@[simp] theorem State.setScreen_mem (s : State) (fb : Screen) : (s.setScreen fb).mem = s.mem := rfl
@[simp] theorem State.setScreen_stack (s : State) (fb : Screen) : (s.setScreen fb).stack = s.stack := rfl
@[simp] theorem State.setScreen_keys (s : State) (fb : Screen) : (s.setScreen fb).keys = s.keys := rfl
@[simp] theorem State.setScreen_fb (s : State) (fb : Screen) : (s.setScreen fb).fb = fb := rfl
@[simp] theorem State.setScreen_fault (s : State) (fb : Screen) : (s.setScreen fb).fault = s.fault := rfl
@[simp] theorem State.setScreen_font (s : State) (fb : Screen) : (s.setScreen fb).font = s.font := rfl
@[simp] theorem State.setScreen_free (s : State) (fb : Screen) : (s.setScreen fb).free = s.free := rfl
@[simp] theorem State.setScreen_reg (s : State) (fb : Screen) (r : Reg) : (s.setScreen fb).reg r = s.reg r := rfl
@[simp] theorem State.setScreen_byteAt (s : State) (fb : Screen) (c : Nat) : (s.setScreen fb).byteAt c = s.byteAt c := rfl
@[simp] theorem State.setScreen_key (s : State) (fb : Screen) (j : Key) : (s.setScreen fb).key j = s.key j := rfl
@[simp] theorem State.setScreen_sp (s : State) (fb : Screen) : (s.setScreen fb).sp = s.sp := rfl
@[simp] theorem State.setScreen_dataAddr (s : State) (fb : Screen) (o : Nat) : (s.setScreen fb).dataAddr o = s.dataAddr o := rfl

/-! ### setKey -/

@[simp] theorem State.setKey_V (s : State) (k : Key) (p : Bool) : (s.setKey k p).V = s.V := rfl
@[simp] theorem State.setKey_pc (s : State) (k : Key) (p : Bool) : (s.setKey k p).pc = s.pc := rfl
@[simp] theorem State.setKey_I (s : State) (k : Key) (p : Bool) : (s.setKey k p).I = s.I := rfl
@[simp] theorem State.setKey_DT (s : State) (k : Key) (p : Bool) : (s.setKey k p).DT = s.DT := rfl
@[simp] theorem State.setKey_ST (s : State) (k : Key) (p : Bool) : (s.setKey k p).ST = s.ST := rfl
@[simp] theorem State.setKey_mem (s : State) (k : Key) (p : Bool) : (s.setKey k p).mem = s.mem := rfl
@[simp] theorem State.setKey_stack (s : State) (k : Key) (p : Bool) : (s.setKey k p).stack = s.stack := rfl
@[simp] theorem State.setKey_keys (s : State) (k : Key) (p : Bool) : (s.setKey k p).keys = s.keys.set k.val p := rfl
@[simp] theorem State.setKey_fb (s : State) (k : Key) (p : Bool) : (s.setKey k p).fb = s.fb := rfl
@[simp] theorem State.setKey_fault (s : State) (k : Key) (p : Bool) : (s.setKey k p).fault = s.fault := rfl
@[simp] theorem State.setKey_font (s : State) (k : Key) (p : Bool) : (s.setKey k p).font = s.font := rfl
@[simp] theorem State.setKey_free (s : State) (k : Key) (p : Bool) : (s.setKey k p).free = s.free := rfl
@[simp] theorem State.setKey_reg (s : State) (k : Key) (p : Bool) (r : Reg) : (s.setKey k p).reg r = s.reg r := rfl
@[simp] theorem State.setKey_byteAt (s : State) (k : Key) (p : Bool) (c : Nat) : (s.setKey k p).byteAt c = s.byteAt c := rfl
@[simp] theorem State.setKey_pixel (s : State) (k : Key) (p : Bool) (r : Fin 32) (c : Fin 64) : (s.setKey k p).pixel r c = s.pixel r c := rfl
@[simp] theorem State.setKey_sp (s : State) (k : Key) (p : Bool) : (s.setKey k p).sp = s.sp := rfl
@[simp] theorem State.setKey_dataAddr (s : State) (k : Key) (p : Bool) (o : Nat) : (s.setKey k p).dataAddr o = s.dataAddr o := rfl

/-! ### draw8 -/

@[simp] theorem State.draw8_V (s : State) : (s.draw8.2).V = s.V := rfl
@[simp] theorem State.draw8_pc (s : State) : (s.draw8.2).pc = s.pc := rfl
@[simp] theorem State.draw8_I (s : State) : (s.draw8.2).I = s.I := rfl
@[simp] theorem State.draw8_DT (s : State) : (s.draw8.2).DT = s.DT := rfl
@[simp] theorem State.draw8_ST (s : State) : (s.draw8.2).ST = s.ST := rfl
@[simp] theorem State.draw8_mem (s : State) : (s.draw8.2).mem = s.mem := rfl
@[simp] theorem State.draw8_stack (s : State) : (s.draw8.2).stack = s.stack := rfl
@[simp] theorem State.draw8_keys (s : State) : (s.draw8.2).keys = s.keys := rfl
@[simp] theorem State.draw8_fb (s : State) : (s.draw8.2).fb = s.fb := rfl
@[simp] theorem State.draw8_fault (s : State) : (s.draw8.2).fault = s.fault := rfl
@[simp] theorem State.draw8_font (s : State) : (s.draw8.2).font = s.font := rfl
@[simp] theorem State.draw8_free (s : State) : (s.draw8.2).free = s.free + 1 := rfl
@[simp] theorem State.draw8_reg (s : State) (r : Reg) : (s.draw8.2).reg r = s.reg r := rfl
@[simp] theorem State.draw8_byteAt (s : State) (c : Nat) : (s.draw8.2).byteAt c = s.byteAt c := rfl
@[simp] theorem State.draw8_pixel (s : State) (r : Fin 32) (c : Fin 64) : (s.draw8.2).pixel r c = s.pixel r c := rfl
@[simp] theorem State.draw8_key (s : State) (j : Key) : (s.draw8.2).key j = s.key j := rfl
@[simp] theorem State.draw8_sp (s : State) : (s.draw8.2).sp = s.sp := rfl
@[simp] theorem State.draw8_dataAddr (s : State) (o : Nat) : (s.draw8.2).dataAddr o = s.dataAddr o := rfl

/-! ### resultThenFlag -/

@[simp] theorem State.resultThenFlag_V (s : State) (x : Reg) (v f : Byte) : (s.resultThenFlag x v f).V = (s.V.set x.val v).set VF.val f := rfl
@[simp] theorem State.resultThenFlag_pc (s : State) (x : Reg) (v f : Byte) : (s.resultThenFlag x v f).pc = s.pc := rfl
@[simp] theorem State.resultThenFlag_I (s : State) (x : Reg) (v f : Byte) : (s.resultThenFlag x v f).I = s.I := rfl
@[simp] theorem State.resultThenFlag_DT (s : State) (x : Reg) (v f : Byte) : (s.resultThenFlag x v f).DT = s.DT := rfl
@[simp] theorem State.resultThenFlag_ST (s : State) (x : Reg) (v f : Byte) : (s.resultThenFlag x v f).ST = s.ST := rfl
@[simp] theorem State.resultThenFlag_mem (s : State) (x : Reg) (v f : Byte) : (s.resultThenFlag x v f).mem = s.mem := rfl
@[simp] theorem State.resultThenFlag_stack (s : State) (x : Reg) (v f : Byte) : (s.resultThenFlag x v f).stack = s.stack := rfl
@[simp] theorem State.resultThenFlag_keys (s : State) (x : Reg) (v f : Byte) : (s.resultThenFlag x v f).keys = s.keys := rfl
@[simp] theorem State.resultThenFlag_fb (s : State) (x : Reg) (v f : Byte) : (s.resultThenFlag x v f).fb = s.fb := rfl
@[simp] theorem State.resultThenFlag_fault (s : State) (x : Reg) (v f : Byte) : (s.resultThenFlag x v f).fault = s.fault := rfl
@[simp] theorem State.resultThenFlag_font (s : State) (x : Reg) (v f : Byte) : (s.resultThenFlag x v f).font = s.font := rfl
@[simp] theorem State.resultThenFlag_free (s : State) (x : Reg) (v f : Byte) : (s.resultThenFlag x v f).free = s.free := rfl
@[simp] theorem State.resultThenFlag_byteAt (s : State) (x : Reg) (v f : Byte) (c : Nat) : (s.resultThenFlag x v f).byteAt c = s.byteAt c := rfl
@[simp] theorem State.resultThenFlag_pixel (s : State) (x : Reg) (v f : Byte) (r : Fin 32) (c : Fin 64) : (s.resultThenFlag x v f).pixel r c = s.pixel r c := rfl
@[simp] theorem State.resultThenFlag_key (s : State) (x : Reg) (v f : Byte) (j : Key) : (s.resultThenFlag x v f).key j = s.key j := rfl
@[simp] theorem State.resultThenFlag_sp (s : State) (x : Reg) (v f : Byte) : (s.resultThenFlag x v f).sp = s.sp := rfl
@[simp] theorem State.resultThenFlag_dataAddr (s : State) (x : Reg) (v f : Byte) (o : Nat) : (s.resultThenFlag x v f).dataAddr o = s.dataAddr o := rfl

/-! ### flagThenResult -/

@[simp] theorem State.flagThenResult_V (s : State) (x : Reg) (v f : Byte) : (s.flagThenResult x v f).V = (s.V.set VF.val f).set x.val v := rfl
@[simp] theorem State.flagThenResult_pc (s : State) (x : Reg) (v f : Byte) : (s.flagThenResult x v f).pc = s.pc := rfl
@[simp] theorem State.flagThenResult_I (s : State) (x : Reg) (v f : Byte) : (s.flagThenResult x v f).I = s.I := rfl
@[simp] theorem State.flagThenResult_DT (s : State) (x : Reg) (v f : Byte) : (s.flagThenResult x v f).DT = s.DT := rfl
@[simp] theorem State.flagThenResult_ST (s : State) (x : Reg) (v f : Byte) : (s.flagThenResult x v f).ST = s.ST := rfl
@[simp] theorem State.flagThenResult_mem (s : State) (x : Reg) (v f : Byte) : (s.flagThenResult x v f).mem = s.mem := rfl
@[simp] theorem State.flagThenResult_stack (s : State) (x : Reg) (v f : Byte) : (s.flagThenResult x v f).stack = s.stack := rfl
@[simp] theorem State.flagThenResult_keys (s : State) (x : Reg) (v f : Byte) : (s.flagThenResult x v f).keys = s.keys := rfl
@[simp] theorem State.flagThenResult_fb (s : State) (x : Reg) (v f : Byte) : (s.flagThenResult x v f).fb = s.fb := rfl
@[simp] theorem State.flagThenResult_fault (s : State) (x : Reg) (v f : Byte) : (s.flagThenResult x v f).fault = s.fault := rfl
@[simp] theorem State.flagThenResult_font (s : State) (x : Reg) (v f : Byte) : (s.flagThenResult x v f).font = s.font := rfl
@[simp] theorem State.flagThenResult_free (s : State) (x : Reg) (v f : Byte) : (s.flagThenResult x v f).free = s.free := rfl
@[simp] theorem State.flagThenResult_byteAt (s : State) (x : Reg) (v f : Byte) (c : Nat) : (s.flagThenResult x v f).byteAt c = s.byteAt c := rfl
@[simp] theorem State.flagThenResult_pixel (s : State) (x : Reg) (v f : Byte) (r : Fin 32) (c : Fin 64) : (s.flagThenResult x v f).pixel r c = s.pixel r c := rfl
@[simp] theorem State.flagThenResult_key (s : State) (x : Reg) (v f : Byte) (j : Key) : (s.flagThenResult x v f).key j = s.key j := rfl
@[simp] theorem State.flagThenResult_sp (s : State) (x : Reg) (v f : Byte) : (s.flagThenResult x v f).sp = s.sp := rfl
@[simp] theorem State.flagThenResult_dataAddr (s : State) (x : Reg) (v f : Byte) (o : Nat) : (s.flagThenResult x v f).dataAddr o = s.dataAddr o := rfl

/-! ### Reset -/

@[simp] theorem State.resetWith_font (font : Vector Byte 80) (k : Nat) : (State.resetWith font k).font = font := rfl
@[simp] theorem State.resetWith_mem (font : Vector Byte 80) (k : Nat) : (State.resetWith font k).mem = [] := rfl
@[simp] theorem State.resetWith_stack (font : Vector Byte 80) (k : Nat) : (State.resetWith font k).stack = [] := rfl
@[simp] theorem State.resetWith_fault (font : Vector Byte 80) (k : Nat) : (State.resetWith font k).fault = none := rfl
@[simp] theorem State.resetWith_free (font : Vector Byte 80) (k : Nat) : (State.resetWith font k).free = k := rfl

/-! ### A fault -/

@[simp] theorem State.enterFault_fault (s : State) (f : Fault) : (s.enterFault f).fault = some f := rfl
@[simp] theorem State.enterFault_mem (s : State) (f : Fault) :
    (s.enterFault f).mem = Memory.ofBytes s.font (Config.residue s.free).mem := by simp only [State.enterFault]
@[simp] theorem State.enterFault_stack (s : State) (f : Fault) :
    (s.enterFault f).stack = (Config.residue s.free).stack.take 16 := rfl
@[simp] theorem State.enterFault_font (s : State) (f : Fault) : (s.enterFault f).font = s.font := rfl
@[simp] theorem State.enterFault_free (s : State) (f : Fault) : (s.enterFault f).free = s.free + 1 := rfl

end Sys2Proof.Machine
end

