-- ==== Sys2Proof/Laws/Ops.lean ====
section
/-! SUPPORT. One lemma per shared operation that says everything it does, cited by proofs in place of unfolding it. -/

namespace Sys2Proof.Machine

/-! ### Registers -/

theorem State.reg_setReg (s : State) (x r : Reg) (v : Byte) : (s.setReg x v).reg r = if r = x then v else s.reg r := by
  simp only [State.reg, State.setReg, Vector.getElem_set, Fin.ext_iff, eq_comm]

@[simp] theorem State.reg_setReg_self (s : State) (x : Reg) (v : Byte) : (s.setReg x v).reg x = v := by
  simp [State.reg_setReg]

theorem State.reg_setReg_ne (s : State) {x r : Reg} (v : Byte) (h : r ≠ x) : (s.setReg x v).reg r = s.reg r := by
  simp [State.reg_setReg, h]

/-- `8xy4`, `8xy5`: the flag is what `VF` holds, whatever `x` is. -/
theorem State.reg_resultThenFlag (s : State) (x r : Reg) (v f : Byte) :
    (s.resultThenFlag x v f).reg r = if r = VF then f else if r = x then v else s.reg r := by
  simp [State.resultThenFlag, State.reg_setReg]

/-- `8xy6`, `8xy7`, `8xyE`: the result is what `Vx` holds, also when `x` is `VF`. -/
theorem State.reg_flagThenResult (s : State) (x r : Reg) (v f : Byte) :
    (s.flagThenResult x v f).reg r = if r = x then v else if r = VF then f else s.reg r := by
  simp [State.flagThenResult, State.reg_setReg]

theorem State.reg_setRegsUpTo (s : State) (x r : Reg) (f : Nat → Byte) :
    (s.setRegsUpTo x f).reg r = if r ≤ x then f r.val else s.reg r := by
  simp [State.reg, State.setRegsUpTo]

theorem State.regsUpTo_length (s : State) (x : Reg) : (s.regsUpTo x).length = x.val + 1 := by
  simp [State.regsUpTo]

theorem State.regsUpTo_getElem (s : State) (x : Reg) (k : Nat) (h : k < (s.regsUpTo x).length) :
    (s.regsUpTo x)[k] = s.reg ⟨k, by have := s.regsUpTo_length x; omega⟩ := by
  simp [State.regsUpTo, State.reg]

/-! ### Skips -/

theorem State.skipIf_pc (s : State) (c : Bool) : (s.skipIf c).pc = if c = true then s.pc + 2 else s.pc := by
  cases c <;> rfl

/-- A skip changes `pc` alone. -/
theorem State.skipIf_eq (s : State) (c : Bool) : s.skipIf c = s.setPc (s.skipIf c).pc := by
  cases c <;> rfl

/-! ### Memory -/

@[simp] theorem State.byteAt_setByte_self (s : State) (a : Nat) (b : Byte) : (s.setByte a b).byteAt a = b := by
  simp [State.byteAt]

theorem State.byteAt_setByte_ne (s : State) {a c : Nat} (b : Byte) (h : c ≠ a) :
    (s.setByte a b).byteAt c = s.byteAt c := by
  simp [State.byteAt, Memory.read_write_ne _ _ _ h]

/-- Storing bytes changes `mem` alone. -/
theorem State.storeBytes_eq (s : State) (a : Nat) (bs : List Byte) :
    s.storeBytes a bs = { s with mem := (s.storeBytes a bs).mem } := by
  induction bs generalizing s a with
  | nil => rfl
  | cons b bs ih => rw [State.storeBytes, ih]; rfl

theorem State.byteAt_storeBytes_outside (s : State) (a : Nat) (bs : List Byte) {c : Nat}
    (h : c < a ∨ a + bs.length ≤ c) : (s.storeBytes a bs).byteAt c = s.byteAt c := by
  induction bs generalizing s a with
  | nil => rfl
  | cons b bs ih =>
    simp only [List.length_cons] at h
    rw [State.storeBytes, ih (s.setByte a b) (a + 1) (by omega), State.byteAt_setByte_ne _ _ (by omega)]

theorem State.byteAt_storeBytes (s : State) (a : Nat) (bs : List Byte) (k : Nat) (h : k < bs.length) :
    (s.storeBytes a bs).byteAt (a + k) = bs[k] := by
  induction bs generalizing s a k with
  | nil => simp at h
  | cons b bs ih =>
    rw [State.storeBytes]
    cases k with
    | zero => rw [State.byteAt_storeBytes_outside _ _ _ (by omega)]; simp
    | succ k =>
      rw [show a + (k + 1) = a + 1 + k by omega, ih (s.setByte a b) (a + 1) k (by simpa using h)]
      simp

/-- All that storing bytes does to a read: the stored byte inside the range, the old byte outside it. -/
theorem State.byteAt_storeBytes_overlaid (s : State) (a : Nat) (bs : List Byte) (c : Nat) :
    (s.storeBytes a bs).byteAt c = s.overlaid a bs.length (fun k => bs.getD k 0) c := by
  unfold State.overlaid
  split
  · rename_i h
    obtain ⟨k, rfl⟩ := Nat.exists_eq_add_of_le h.1
    have hk : k < bs.length := by omega
    simp [State.byteAt_storeBytes s a bs k hk, List.getD, hk]
  · exact s.byteAt_storeBytes_outside a bs (by omega)

/-- Storing bytes inside memory keeps the canonical form. -/
theorem State.storeBytes_canonical (s : State) (a : Nat) (bs : List Byte) (h : a + bs.length ≤ 4096)
    (hs : s.MemoryCanonical) : (s.storeBytes a bs).MemoryCanonical := by
  induction bs generalizing s a with
  | nil => exact hs
  | cons b bs ih =>
    simp only [List.length_cons] at h
    exact ih (s.setByte a b) (a + 1) (by omega) (Memory.wf_write b (by omega) hs)

theorem State.loadBytes_length (s : State) (a n : Nat) : (s.loadBytes a n).length = n := by
  induction n generalizing a with
  | zero => rfl
  | succ n ih => simp [State.loadBytes, ih]

theorem State.loadBytes_getElem (s : State) (a n k : Nat) (h : k < (s.loadBytes a n).length) :
    (s.loadBytes a n)[k] = s.byteAt (a + k) := by
  induction n generalizing a k with
  | zero => simp [State.loadBytes] at h
  | succ n ih =>
    cases k with
    | zero => simp [State.loadBytes]
    | succ k => simp only [State.loadBytes, List.getElem_cons_succ, ih]; congr 1; omega

theorem inMemory_iff (base len : Nat) : inMemory base len = true ↔ len = 0 ∨ base + len ≤ 4096 := by
  simp [inMemory]

/-! ### Call stack -/

/-- A push succeeds exactly when fewer than 16 addresses are pending, and then appends the address. -/
theorem State.push_eq_some_iff (s t : State) (a : Word) :
    s.push a = some t ↔ s.sp < 16 ∧ t = { s with stack := s.stack ++ [a] } := by
  simp [State.push, eq_comm]

theorem State.push_eq_none_iff (s : State) (a : Word) : s.push a = none ↔ s.sp ≥ 16 := by
  simp [State.push]

/-- A pop succeeds exactly when an address is pending, and then gives the last one pushed. -/
theorem State.pop_eq_some_iff (s t : State) (a : Word) :
    s.pop = some (a, t) ↔ ∃ older, s.stack = older ++ [a] ∧ t = { s with stack := older } := by
  rcases List.eq_nil_or_concat s.stack with h | ⟨older, b, h⟩
  · simp [State.pop, h]
  · simp only [State.pop, h, List.concat_eq_append, List.getLast?_append, List.getLast?_singleton, Option.some_or,
      List.dropLast_concat, Option.some.injEq, Prod.mk.injEq, List.append_singleton_inj]
    constructor
    · rintro ⟨rfl, rfl⟩; exact ⟨older, ⟨rfl, rfl⟩, rfl⟩
    · rintro ⟨_, ⟨rfl, rfl⟩, rfl⟩; exact ⟨rfl, rfl⟩

theorem State.pop_eq_none_iff (s : State) : s.pop = none ↔ s.stack = [] := by
  rcases List.eq_nil_or_concat s.stack with h | ⟨older, b, h⟩ <;> simp [State.pop, h]

/-! ### Keys -/

theorem keyOf_eq_some_iff (v : Byte) (k : Key) : keyOf v = some k ↔ v.toNat = k.val := by
  unfold keyOf
  split
  · simp [Fin.ext_iff]
  · rename_i h; constructor
    · intro h'; cases h'
    · intro h'; omega

theorem keyOf_eq_none_iff (v : Byte) : keyOf v = none ↔ v.toNat ≥ 16 := by
  simp [keyOf]

/-! ### Flags -/

theorem flagByte_toNat (b : Bool) : (flagByte b).toNat = b.toNat := by cases b <;> rfl

/-! ### Faults -/

/-- Raising a fault never completes and is never refused. -/
theorem raise_ne_next (cause : Word → Word → Fault) (i : Instr) (s t : State) : raise cause i s ≠ .next t := by
  simp [raise]

theorem raise_eq_fault_iff (cause : Word → Word → Fault) (i : Instr) (s : State) (f : Fault) :
    raise cause i s = .fault f ↔ f = cause (s.pc - 2) (encode i) := by
  simp [raise, eq_comm]

/-- The core after a fault has memory in its canonical form and at most 16 pending addresses, whatever its residue. -/
theorem State.enterFault_inv (s : State) (f : Fault) : (s.enterFault f).Inv := by
  refine ⟨?_, ?_, ?_⟩
  · rw [State.MemoryCanonical, State.enterFault_mem]
    exact Memory.wf_ofBytes _ _
  · simp [State.StackBounded, State.sp, State.enterFault]
  · simp

end Sys2Proof.Machine
end

