-- ==== Sys2Proof/Laws/Display.lean ====
section
/-! SUPPORT. What plotting a sprite does to each cell, and when it reports a collision (44_display.md R191, R192). -/

namespace Sys2Proof.Machine

theorem Screen.lit_toggle (fb : Screen) (r r' : Fin 32) (c c' : Fin 64) :
    Screen.lit (Screen.toggle fb r c) r' c' = (Screen.lit fb r' c' ^^ decide (r' = r ∧ c' = c)) := by
  simp only [Screen.lit, Screen.toggle, Vector.getElem_set]
  by_cases hr : r' = r
  · subst hr
    by_cases hc : c' = c
    · subst hc; simp
    · have : c.val ≠ c'.val := fun h => hc (Fin.ext h.symm)
      simp [this, hc]
  · have : r.val ≠ r'.val := fun h => hr (Fin.ext h.symm)
    simp [this, hr]

@[simp] theorem Screen.lit_blank (r : Fin 32) (c : Fin 64) : Screen.lit Screen.blank r c = false := by
  simp [Screen.lit, Screen.blank]

@[simp] theorem State.pixel_setScreen (s : State) (fb : Screen) (r : Fin 32) (c : Fin 64) :
    (s.setScreen fb).pixel r c = Screen.lit fb r c := rfl

/-- A column is the sprite's `col`-th exactly when it lies `col` columns right of the start. -/
theorem eq_spriteCol_iff (vx : Byte) (c : Fin 64) {col : Nat} (h : col < 8) :
    c = spriteCol vx col ↔ colsRight vx c = col := by
  have := vx.isLt; have := c.isLt
  simp only [Fin.ext_iff, spriteCol, colsRight]
  omega

/-- A row is the sprite's `row`-th exactly when it lies `row` rows below the start. -/
theorem eq_spriteRow_iff (vy : Byte) (r : Fin 32) {row : Nat} (h : row < 32) :
    r = spriteRow vy row ↔ rowsBelow vy r = row := by
  have := vy.isLt; have := r.isLt
  simp only [Fin.ext_iff, spriteRow, rowsBelow]
  omega

/-- The first `k` columns of a sprite row. -/
theorem plotCols_spec (vx : Byte) (r : Fin 32) (b : Byte) (fc : Screen × Bool) (k : Nat) (hk : k ≤ 8) :
    let fc' := (List.range k).foldl
      (fun fc col => if spriteBit b col then plotBit fc r (spriteCol vx col) else fc) fc
    (∀ r' c, Screen.lit fc'.1 r' c =
      (Screen.lit fc.1 r' c ^^ decide (r' = r ∧ colsRight vx c < k ∧ spriteBit b (colsRight vx c) = true))) ∧
    (fc'.2 = true ↔ fc.2 = true ∨
      ∃ c, colsRight vx c < k ∧ spriteBit b (colsRight vx c) = true ∧ Screen.lit fc.1 r c = true) := by
  induction k with
  | zero => simp
  | succ k ih =>
    obtain ⟨hlit, hcol⟩ := ih (by omega)
    simp only [List.range_succ, List.foldl_append, List.foldl_cons, List.foldl_nil]
    have hk8 : k < 8 := by omega
    generalize (List.range k).foldl
      (fun fc col => if spriteBit b col then plotBit fc r (spriteCol vx col) else fc) fc = F at hlit hcol ⊢
    split
    · rename_i hb
      refine ⟨fun r' c => ?_, ?_⟩
      · simp only [plotBit, Screen.lit_toggle, hlit, eq_spriteCol_iff vx c hk8, Bool.xor_assoc]
        congr 1
        by_cases hr : r' = r <;> by_cases hc : colsRight vx c = k
        · simp [hr, hc, hb]
        · simp [hr, hc, show colsRight vx c < k + 1 ↔ colsRight vx c < k by omega]
        · simp [hr]
        · simp [hr]
      · simp only [plotBit, Bool.or_eq_true, hcol, hlit]
        have hself : colsRight vx (spriteCol vx k) = k := (eq_spriteCol_iff vx _ hk8).1 rfl
        simp only [hself, lt_irrefl, false_and, and_false, decide_false, Bool.xor_false]
        constructor
        · rintro ((h | ⟨c, h1, h2⟩) | h)
          · exact .inl h
          · exact .inr ⟨c, by omega, h2⟩
          · exact .inr ⟨spriteCol vx k, by omega, by rwa [hself], h⟩
        · rintro (h | ⟨c, h1, h2, h3⟩)
          · exact .inl (.inl h)
          · by_cases hc : colsRight vx c = k
            · exact .inr ((eq_spriteCol_iff vx c hk8).2 hc ▸ h3)
            · exact .inl (.inr ⟨c, by omega, h2, h3⟩)
    · rename_i hb
      refine ⟨fun r' c => ?_, ?_⟩
      · rw [hlit]
        congr 1
        by_cases hc : colsRight vx c = k
        · simp [hc, hb]
        · simp [show colsRight vx c < k + 1 ↔ colsRight vx c < k by omega]
      · rw [hcol]
        refine or_congr Iff.rfl (exists_congr fun c => ?_)
        by_cases hc : colsRight vx c = k
        · simp [hc, hb]
        · simp [show colsRight vx c < k + 1 ↔ colsRight vx c < k by omega]

/-- One row of a sprite: the cells of its row whose bit is 1 are toggled, and a lit one among them is a collision. -/
theorem plotRow_spec (vx : Byte) (r : Fin 32) (b : Byte) (fc : Screen × Bool) :
    (∀ r' c, Screen.lit (plotRow vx r b fc).1 r' c =
      (Screen.lit fc.1 r' c ^^ decide (r' = r ∧ colsRight vx c < 8 ∧ spriteBit b (colsRight vx c) = true))) ∧
    ((plotRow vx r b fc).2 = true ↔ fc.2 = true ∨
      ∃ c, colsRight vx c < 8 ∧ spriteBit b (colsRight vx c) = true ∧ Screen.lit fc.1 r c = true) :=
  plotCols_spec vx r b fc 8 (Nat.le_refl 8)

/-- Whether the rows from the `row`-th on, `bs`, have a 1 bit on a cell. -/
def rowsBit (vx vy : Byte) (row : Nat) (bs : List Byte) (r : Fin 32) (c : Fin 64) : Bool :=
  decide (row ≤ rowsBelow vy r) && decide (colsRight vx c < 8) &&
    match bs[rowsBelow vy r - row]? with
    | some b => spriteBit b (colsRight vx c)
    | none => false

theorem rowsBit_cons (vx vy : Byte) (row : Nat) (b : Byte) (bs : List Byte) (h : row < 32) (r : Fin 32) (c : Fin 64) :
    rowsBit vx vy row (b :: bs) r c =
      ((decide (r = spriteRow vy row ∧ colsRight vx c < 8 ∧ spriteBit b (colsRight vx c) = true)) ^^
        rowsBit vx vy (row + 1) bs r c) := by
  simp only [rowsBit, eq_spriteRow_iff vy r h]
  by_cases h1 : rowsBelow vy r = row
  · subst h1; simp
  · by_cases h2 : row ≤ rowsBelow vy r
    · have h3 : row + 1 ≤ rowsBelow vy r := by omega
      rw [show rowsBelow vy r - row = rowsBelow vy r - (row + 1) + 1 by omega, List.getElem?_cons_succ]
      simp [h1, h2, h3]
    · simp [h1, h2, show ¬ row + 1 ≤ rowsBelow vy r by omega]

/-- The rows of a sprite, no more than reach round the screen once: each cell is exclusive-ORed with the bit on it, and
there is a collision exactly when a 1 bit falls on a lit cell. -/
theorem plotRows_spec (vx vy : Byte) (row : Nat) (bs : List Byte) (fc : Screen × Bool) (h : row + bs.length ≤ 32) :
    (∀ r c, Screen.lit (plotRows vx vy row bs fc).1 r c = (Screen.lit fc.1 r c ^^ rowsBit vx vy row bs r c)) ∧
    ((plotRows vx vy row bs fc).2 = true ↔ fc.2 = true ∨
      ∃ r c, rowsBit vx vy row bs r c = true ∧ Screen.lit fc.1 r c = true) := by
  induction bs generalizing row fc with
  | nil => simp [plotRows, rowsBit]
  | cons b bs ih =>
    simp only [List.length_cons] at h
    have hrow : row < 32 := by omega
    obtain ⟨hlit, hcol⟩ := ih (row + 1) (plotRow vx (spriteRow vy row) b fc) (by omega)
    obtain ⟨plit, pcol⟩ := plotRow_spec vx (spriteRow vy row) b fc
    refine ⟨fun r c => ?_, ?_⟩
    · rw [plotRows, hlit, plit, rowsBit_cons _ _ _ _ _ hrow, Bool.xor_assoc]
    · rw [plotRows, hcol, pcol, or_assoc]
      refine or_congr Iff.rfl ⟨?_, ?_⟩
      · rintro (⟨c, h1, h2, h3⟩ | ⟨r, c, h1, h2⟩)
        · refine ⟨spriteRow vy row, c, ?_, h3⟩
          have : rowsBelow vy (spriteRow vy row) = row := (eq_spriteRow_iff vy _ hrow).1 rfl
          simp [h1, h2, rowsBit, this]
        · have hne : r ≠ spriteRow vy row := by
            intro he
            have := (eq_spriteRow_iff vy r hrow).1 he
            simp only [rowsBit, Bool.and_eq_true, decide_eq_true_eq] at h1
            omega
          refine ⟨r, c, ?_, ?_⟩
          · simp [rowsBit_cons _ _ _ _ _ hrow, hne, h1]
          · simpa [plit, hne] using h2
      · rintro ⟨r, c, h1, h2⟩
        rw [rowsBit_cons _ _ _ _ _ hrow] at h1
        by_cases he : r = spriteRow vy row
        · subst he
          have hr : rowsBelow vy (spriteRow vy row) = row := (eq_spriteRow_iff vy _ hrow).1 rfl
          simp [rowsBit, hr] at h1
          exact .inl ⟨c, h1.1, h1.2, h2⟩
        · refine .inr ⟨r, c, by simpa [he] using h1, by simpa [plit, he] using h2⟩

end Sys2Proof.Machine
end

