-- ==== Sys2Proof/Laws/Masks.lean ====
section
/-! SUPPORT. What the masks of the opcode map leave of a word, in terms of the decoder's fields (30_encoding.md R82). -/

namespace Sys2Proof

theorem getLsbD_encodeXYN (d1 : Nibble) (x y : Reg) (d4 : Nibble) (k : Nat) :
    (encodeXYN d1 x y d4).getLsbD k =
      if k < 4 then d4.getLsbD k else if k < 8 then (regBits y).getLsbD (k - 4)
      else if k < 12 then (regBits x).getLsbD (k - 8) else d1.getLsbD (k - 12) := by
  have h : encodeXYN d1 x y d4 = (d1 ++ regBits x ++ regBits y ++ d4 : BitVec (4 + 4 + 4 + 4)) := rfl
  rw [h]
  simp only [BitVec.getLsbD_append]
  split_ifs <;> first | rfl | omega

/-- Every word as its four nibbles. -/
theorem word_eq_nibbles (iw : Word) : iw = encodeXYN (fieldD1 iw) (fieldX iw) (fieldY iw) (fieldN iw) :=
  (encodeXYN_fields iw).symm

theorem encodeXYN_and (d1 d1' : Nibble) (x x' y y' : Reg) (d4 d4' : Nibble) :
    encodeXYN d1 x y d4 &&& encodeXYN d1' x' y' d4' =
      encodeXYN (d1 &&& d1') (regOf (regBits x &&& regBits x')) (regOf (regBits y &&& regBits y')) (d4 &&& d4') := by
  apply BitVec.eq_of_getLsbD_eq
  intro k _
  simp only [BitVec.getLsbD_and, getLsbD_encodeXYN, regBits_regOf]
  split_ifs <;> rfl

theorem nibble_and_F : ∀ f : Nibble, f &&& 0xF = f := by decide
theorem nibble_and_0 : ∀ f : Nibble, f &&& 0x0 = 0 := by decide
theorem reg_and_F : ∀ x : Reg, regOf (regBits x &&& regBits 0xF) = x := by decide
theorem reg_and_0 : ∀ x : Reg, regOf (regBits x &&& regBits 0x0) = 0 := by decide

/-- The mask of formats `NNN`, `XKK` and `XYN` keeps `d1`. -/
theorem and_F000 (iw : Word) : iw &&& 0xF000#16 = encodeXYN (fieldD1 iw) 0 0 0 := by
  conv_lhs => rw [word_eq_nibbles iw, show 0xF000#16 = encodeXYN 0xF 0 0 0 from rfl, encodeXYN_and]
  simp only [nibble_and_F, nibble_and_0, reg_and_0]

/-- The mask of format `XY` keeps `d1` and `d4`. -/
theorem and_F00F (iw : Word) : iw &&& 0xF00F#16 = encodeXYN (fieldD1 iw) 0 0 (fieldN iw) := by
  conv_lhs => rw [word_eq_nibbles iw, show 0xF00F#16 = encodeXYN 0xF 0 0 0xF from rfl, encodeXYN_and]
  simp only [nibble_and_F, reg_and_0]

/-- The mask of format `X` keeps `d1` and `kk`. -/
theorem and_F0FF (iw : Word) : iw &&& 0xF0FF#16 = encodeXYN (fieldD1 iw) 0 (fieldY iw) (fieldN iw) := by
  conv_lhs => rw [word_eq_nibbles iw, show 0xF0FF#16 = encodeXYN 0xF 0 0xF 0xF from rfl, encodeXYN_and]
  simp only [nibble_and_F, reg_and_F, reg_and_0]

end Sys2Proof
end

