-- ==== Sys2Proof/Laws/PerInstr.lean ====
section
/-! SUPPORT. Statements made per instruction, one lemma per constructor of `Instr`. -/

namespace Sys2Proof.Laws.EncodesItsRow

/-- The word an instruction encodes to is an instance of its own row of the opcode map (R82, R86). -/
def Statement (i : Instr) : Prop := i.row.admits (encode i) = true

theorem of_F000 (d : Nibble) (m : Word) (h : encodeXYN d 0 0 0 = m) (p : String) (w : Word) (hd : fieldD1 w = d) :
    OpcodeRow.admits ⟨p, m, 0xF000⟩ w = true := by
  show (w &&& 0xF000#16 == m) = true
  rw [and_F000, hd, h]; exact BEq.rfl

theorem of_F00F (d f : Nibble) (m : Word) (h : encodeXYN d 0 0 f = m) (p : String) (x y : Reg) :
    OpcodeRow.admits ⟨p, m, 0xF00F⟩ (encodeXYN d x y f) = true := by
  show (encodeXYN d x y f &&& 0xF00F#16 == m) = true
  rw [and_F00F, fieldD1_encodeXYN, fieldN_encodeXYN, h]; exact BEq.rfl

theorem of_F0FF (d : Nibble) (kk : Byte) (m : Word) (h : encodeXKK d 0 kk = m) (p : String) (x : Reg) :
    OpcodeRow.admits ⟨p, m, 0xF0FF⟩ (encodeXKK d x kk) = true := by
  have e : encodeXYN d 0 (fieldY (encodeXKK d x kk)) (fieldN (encodeXKK d x kk)) = encodeXKK d 0 kk := by
    apply BitVec.eq_of_toNat_eq
    have := kk.isLt
    rw [encodeXYN_toNat, encodeXKK_toNat, fieldY_val, fieldN_toNat, encodeXKK_toNat]
    simp only [Fin.val_zero]
    omega
  show (encodeXKK d x kk &&& 0xF0FF#16 == m) = true
  rw [and_F0FF, fieldD1_encodeXKK, e, h]; exact BEq.rfl

theorem cls : Statement (.cls) := rfl
theorem ret : Statement (.ret) := rfl
theorem jp (nnn : Addr12) : Statement (.jp nnn) := of_F000 0x1 _ rfl _ _ (fieldD1_encodeNNN _ _)
theorem call (nnn : Addr12) : Statement (.call nnn) := of_F000 0x2 _ rfl _ _ (fieldD1_encodeNNN _ _)
theorem seImm (x : Reg) (kk : Byte) : Statement (.seImm x kk) := of_F000 0x3 _ rfl _ _ (fieldD1_encodeXKK _ _ _)
theorem sneImm (x : Reg) (kk : Byte) : Statement (.sneImm x kk) := of_F000 0x4 _ rfl _ _ (fieldD1_encodeXKK _ _ _)
theorem seReg (x : Reg) (y : Reg) : Statement (.seReg x y) := of_F00F _ _ _ rfl _ x y
theorem ldImm (x : Reg) (kk : Byte) : Statement (.ldImm x kk) := of_F000 0x6 _ rfl _ _ (fieldD1_encodeXKK _ _ _)
theorem addImm (x : Reg) (kk : Byte) : Statement (.addImm x kk) := of_F000 0x7 _ rfl _ _ (fieldD1_encodeXKK _ _ _)
theorem ldReg (x : Reg) (y : Reg) : Statement (.ldReg x y) := of_F00F _ _ _ rfl _ x y
theorem orReg (x : Reg) (y : Reg) : Statement (.orReg x y) := of_F00F _ _ _ rfl _ x y
theorem andReg (x : Reg) (y : Reg) : Statement (.andReg x y) := of_F00F _ _ _ rfl _ x y
theorem xorReg (x : Reg) (y : Reg) : Statement (.xorReg x y) := of_F00F _ _ _ rfl _ x y
theorem addReg (x : Reg) (y : Reg) : Statement (.addReg x y) := of_F00F _ _ _ rfl _ x y
theorem subReg (x : Reg) (y : Reg) : Statement (.subReg x y) := of_F00F _ _ _ rfl _ x y
theorem shr (x : Reg) (y : Reg) : Statement (.shr x y) := of_F00F _ _ _ rfl _ x y
theorem subnReg (x : Reg) (y : Reg) : Statement (.subnReg x y) := of_F00F _ _ _ rfl _ x y
theorem shl (x : Reg) (y : Reg) : Statement (.shl x y) := of_F00F _ _ _ rfl _ x y
theorem sneReg (x : Reg) (y : Reg) : Statement (.sneReg x y) := of_F00F _ _ _ rfl _ x y
theorem ldI (nnn : Addr12) : Statement (.ldI nnn) := of_F000 0xA _ rfl _ _ (fieldD1_encodeNNN _ _)
theorem jpV0 (nnn : Addr12) : Statement (.jpV0 nnn) := of_F000 0xB _ rfl _ _ (fieldD1_encodeNNN _ _)
theorem rnd (x : Reg) (kk : Byte) : Statement (.rnd x kk) := of_F000 0xC _ rfl _ _ (fieldD1_encodeXKK _ _ _)
theorem drw (x : Reg) (y : Reg) (n : Nibble) : Statement (.drw x y n) := of_F000 0xD _ rfl _ _ (fieldD1_encodeXYN _ _ _ _)
theorem skp (x : Reg) : Statement (.skp x) := of_F0FF _ _ _ rfl _ x
theorem sknp (x : Reg) : Statement (.sknp x) := of_F0FF _ _ _ rfl _ x
theorem ldVxDT (x : Reg) : Statement (.ldVxDT x) := of_F0FF _ _ _ rfl _ x
theorem ldVxK (x : Reg) : Statement (.ldVxK x) := of_F0FF _ _ _ rfl _ x
theorem ldDTVx (x : Reg) : Statement (.ldDTVx x) := of_F0FF _ _ _ rfl _ x
theorem ldSTVx (x : Reg) : Statement (.ldSTVx x) := of_F0FF _ _ _ rfl _ x
theorem addI (x : Reg) : Statement (.addI x) := of_F0FF _ _ _ rfl _ x
theorem ldF (x : Reg) : Statement (.ldF x) := of_F0FF _ _ _ rfl _ x
theorem ldB (x : Reg) : Statement (.ldB x) := of_F0FF _ _ _ rfl _ x
theorem storeRegs (x : Reg) : Statement (.storeRegs x) := of_F0FF _ _ _ rfl _ x
theorem loadRegs (x : Reg) : Statement (.loadRegs x) := of_F0FF _ _ _ rfl _ x

end Sys2Proof.Laws.EncodesItsRow
end

