-- ==== Sys2Proof/Laws/Step.lean ====
section
/-! SUPPORT. What a STEP can do, said once: it is its instruction's effect on the advanced state, or a fault of a faulted
core, of the fetch or of dispatch (40_fetch_decode_dispatch.md R110, R117). -/

namespace Sys2Proof.Machine

theorem step_of_faulted {s : State} {f : Fault} (h : s.fault = some f) : step s = .fault f := by
  simp only [step, h]

theorem step_of_instr {s : State} {i : Instr} (hf : s.fault = none) (h : s.nextInstr = .ok i) :
    step s = exec i s.advance := by
  simp only [step, hf, h]

theorem step_of_no_instr {s : State} {f : Fault} (hf : s.fault = none) (h : s.nextInstr = .error f) :
    step s = .fault f := by
  simp only [step, hf, h]

/-- A STEP that completes ran the instruction at `pc` on the advanced state of a core that was not faulted. -/
theorem step_eq_next {s t : State} (h : step s = .next t) :
    s.fault = none ∧ ∃ i, s.nextInstr = .ok i ∧ exec i s.advance = .next t := by
  cases hf : s.fault with
  | some f => rw [step_of_faulted hf] at h; cases h
  | none =>
    cases hi : s.nextInstr with
    | error f => rw [step_of_no_instr hf hi] at h; cases h
    | ok i => exact ⟨rfl, i, rfl, step_of_instr hf hi ▸ h⟩

theorem State.fetchWord_of_lt {s : State} (h : s.pc.toNat + 1 < 4096) :
    s.fetchWord = some (wordOfBytes (s.byteAt s.pc.toNat) (s.byteAt (s.pc.toNat + 1))) := by
  simp [State.fetchWord, h]

theorem State.fetchWord_eq_none_iff (s : State) : s.fetchWord = none ↔ 4095 ≤ s.pc.toNat := by
  simp only [State.fetchWord, Config.memSize, ite_eq_right_iff, reduceCtorEq, imp_false]
  omega

/-- The next instruction is the one its fetched word decodes to. -/
theorem State.nextInstr_ok_iff (s : State) (i : Instr) :
    s.nextInstr = .ok i ↔ ∃ iw, s.fetchWord = some iw ∧ decodeWord iw = .ok i := by
  unfold State.nextInstr
  cases s.fetchWord with
  | none => simp
  | some iw => cases h : decodeWord iw <;> simp [h]

/-- A placed word is what the next fetch reads. -/
theorem State.fetchWord_placeWord (s : State) (iw : Word) (h : s.pc.toNat + 1 < 4096) :
    (s.placeWord iw).fetchWord = some iw := by
  have hpc : (s.placeWord iw).pc = s.pc := by
    rw [State.placeWord, State.storeBytes_eq]
  have h0 := s.byteAt_storeBytes s.pc.toNat (bytesOfWord iw) 0 (by simp [bytesOfWord])
  have h1 := s.byteAt_storeBytes s.pc.toNat (bytesOfWord iw) 1 (by simp [bytesOfWord])
  rw [State.fetchWord_of_lt (by rw [hpc]; exact h), hpc]
  simp only [State.placeWord, Nat.add_zero] at h0 h1 ⊢
  rw [h0, h1]
  exact congrArg some (wordOfBytes_bytesOfWord iw)

/-! ### Commands -/

theorem command_of_running {s : State} (h : s.fault = none) (c : Command) : command c s = s.accept c := by
  simp only [command, h]

theorem command_of_faulted {s : State} {f : Fault} (h : s.fault = some f) (c : Command) :
    command c s = s.acceptFaulted f c := by
  simp only [command, h]

theorem imageTooLong_iff (image : List Byte) : imageTooLong image = true ↔ image.length > 3584 := by
  simp [imageTooLong]

/-- TICK's countdown of one timer, as a number. -/
theorem countdown_toNat : ∀ v : Byte, (countdown v).toNat = v.toNat - 1 := by decide

end Sys2Proof.Machine
end

