-- ==== Sys2Proof/Tests/Slice0.lean ====
section
/-! SUPPORT. The model's own tests: words written out bit by bit from the spec's encodings, the vectors of
95_test_vectors.md, and, for every statement with hypotheses, a state and operands that meet them. -/

namespace Sys2Proof.Tests

open Sys2Proof Sys2Proof.Machine

set_option Elab.async false

/-! ## Well-formed words (R88): for each group, ill-formed words that the check refuses -/

theorem test_wellFormed_refuses_family_0 :
    wordWellFormed 0x0000 = false ∧ wordWellFormed 0x00E1 = false ∧ wordWellFormed 0x0123 = false := by decide
theorem test_wellFormed_refuses_family_5 : wordWellFormed 0x5121 = false ∧ wordWellFormed 0x512F = false := by decide
theorem test_wellFormed_refuses_family_8 :
    wordWellFormed 0x8128 = false ∧ wordWellFormed 0x812D = false ∧ wordWellFormed 0x812F = false := by decide
theorem test_wellFormed_refuses_family_9 : wordWellFormed 0x9121 = false := by decide
theorem test_wellFormed_refuses_family_E : wordWellFormed 0xE19F = false ∧ wordWellFormed 0xE1A0 = false := by decide
theorem test_wellFormed_refuses_family_F :
    wordWellFormed 0xF1FF = false ∧ wordWellFormed 0xF100 = false ∧ wordWellFormed 0xF10B = false := by decide

/-! ## Decoding: one word per constructor, its nibbles written out from the pattern (R86) -/

theorem test_decode_fix : decodeWord 0b0000000011100000 = .ok .cls ∧ decodeWord 0b0000000011101110 = .ok .ret := by decide
theorem test_decode_nnn :
    decodeWord 0b0001001000001110 = .ok (.jp 0x20E) ∧ decodeWord 0b0010001000000100 = .ok (.call 0x204) ∧
    decodeWord 0b1010001100000000 = .ok (.ldI 0x300) ∧ decodeWord 0b1011111111111111 = .ok (.jpV0 0xFFF) := by decide
theorem test_decode_xkk :
    decodeWord 0b0011111100000001 = .ok (.seImm 15 1) ∧ decodeWord 0b0100001000000111 = .ok (.sneImm 2 7) ∧
    decodeWord 0b0110101000000101 = .ok (.ldImm 10 5) ∧ decodeWord 0b0111000011111111 = .ok (.addImm 0 0xFF) ∧
    decodeWord 0b1100000100001111 = .ok (.rnd 1 0x0F) := by decide
theorem test_decode_xy :
    decodeWord 0b0101000100100000 = .ok (.seReg 1 2) ∧ decodeWord 0b1001000100100000 = .ok (.sneReg 1 2) ∧
    decodeWord 0b1000000100110000 = .ok (.ldReg 1 3) ∧ decodeWord 0b1000000100100001 = .ok (.orReg 1 2) ∧
    decodeWord 0b1000000100100010 = .ok (.andReg 1 2) ∧ decodeWord 0b1000000100100011 = .ok (.xorReg 1 2) := by decide
theorem test_decode_alu :
    decodeWord 0b1000000000010100 = .ok (.addReg 0 1) ∧ decodeWord 0b1000000000010101 = .ok (.subReg 0 1) ∧
    decodeWord 0b1000000000010110 = .ok (.shr 0 1) ∧ decodeWord 0b1000000111110111 = .ok (.subnReg 1 15) ∧
    decodeWord 0b1000100000011110 = .ok (.shl 8 1) := by decide
theorem test_decode_xyn : decodeWord 0b1101000100101111 = .ok (.drw 1 2 0xF) := by decide
theorem test_decode_keys :
    decodeWord 0b1110010010011110 = .ok (.skp 4) ∧ decodeWord 0b1110010010100001 = .ok (.sknp 4) ∧
    decodeWord 0b1111010000001010 = .ok (.ldVxK 4) ∧ decodeWord 0b1111010100000111 = .ok (.ldVxDT 5) := by decide
theorem test_decode_x :
    decodeWord 0b1111001100010101 = .ok (.ldDTVx 3) ∧ decodeWord 0b1111001100011000 = .ok (.ldSTVx 3) ∧
    decodeWord 0b1111001000011110 = .ok (.addI 2) ∧ decodeWord 0b1111000000101001 = .ok (.ldF 0) ∧
    decodeWord 0b1111101000110011 = .ok (.ldB 10) ∧ decodeWord 0b1111001001010101 = .ok (.storeRegs 2) ∧
    decodeWord 0b1111100001100101 = .ok (.loadRegs 8) := by decide
theorem test_decodeBytes_keeps_the_rest : decodeBytes [0x12, 0x34, 0x56] = .ok (.jp 0x234, [0x56]) := by decide
theorem test_decodeBytes_truncated : decodeBytes [0x12] = .error .truncated := by decide
theorem test_decodeTableWord : decodeTableWord 16 0x6A05 = some (.ldImm 10 5) ∧ decodeTableWord 16 0x5121 = none := by decide

/-! ## One STEP on a small state -/

/-- The state after reset with an instruction word at 0x200. -/
def withWord (w : Nat) : State := State.reset.withFetchWord 16 w

/-- What a completed STEP gives, read through `f`. -/
def stepped {α : Type} (s : State) (f : State → α) : Option α :=
  match step s with
  | .next t => some (f t)
  | _ => none

/-- The fault a STEP ends in. -/
def faulted (s : State) : Option Fault :=
  match step s with
  | .fault f => some f
  | _ => none

theorem test_A8_load_immediate : stepped (withWord 0x6A05) (fun t => (t.reg 10, t.pc)) = some (5, 0x202) := by decide +kernel
theorem test_A9_clear :
    stepped { withWord 0x00E0 with fb := Screen.toggle Screen.blank 0 0 } (fun t => (t.fb, t.pc)) =
      some (Screen.blank, 0x202) := by decide +kernel
theorem test_A10_call : stepped (withWord 0x2204) (fun t => (t.pc, t.stack)) = some (0x204, [0x202]) := by decide +kernel
theorem test_B1_4_fetch_at_the_top :
    stepped ((State.reset.setPc 0xFFE).withFetchWord 16 0x1200) (·.pc) = some 0x200 := by decide +kernel
theorem test_B1_5_fetch_out_of_range : faulted (State.reset.setPc 0xFFF) = some (.outOfRange 0xFFF 0) := by decide +kernel
theorem test_B1_7_odd_fetch :
    stepped ((State.reset.setPc 0x201).withFetchWord 16 0x6107) (fun t => (t.reg 1, t.pc)) = some (7, 0x203) := by
  decide +kernel
theorem test_B1_8_nothing_loaded : faulted State.reset = some (.invalidOpcode 0x200 0) := by decide +kernel
theorem test_B2_3_return :
    stepped { (State.reset.setPc 0x20C).withFetchWord 16 0x00EE with stack := [0x206] } (fun t => (t.pc, t.stack)) =
      some (0x206, []) := by decide +kernel
theorem test_B2_4_underflow : faulted (withWord 0x00EE) = some (.stackUnderflow 0x200 0x00EE) := by decide +kernel
theorem test_B2_6_overflow :
    faulted { withWord 0x2300 with stack := List.replicate 16 0x202 } = some (.stackOverflow 0x200 0x2300) := by decide +kernel
theorem test_B2_8_skip_taken : stepped ((withWord 0x3F01).setReg 15 1) (·.pc) = some 0x204 := by decide +kernel
theorem test_B2_9_skip_not_taken : stepped ((withWord 0x4207).setReg 2 7) (·.pc) = some 0x202 := by decide +kernel
theorem test_B2_11_skip_equal : stepped (((withWord 0x5120).setReg 1 9).setReg 2 8) (·.pc) = some 0x202 := by decide +kernel
theorem test_B2_11_skip_differ : stepped (((withWord 0x9120).setReg 1 9).setReg 2 8) (·.pc) = some 0x204 := by decide +kernel
theorem test_B2_15_indexed_jump : stepped ((withWord 0xBFFF).setReg 0 0xFF) (·.pc) = some 0x10FE := by decide +kernel
theorem test_B2_16_offset_is_V0 : stepped ((withWord 0xB3FF).setReg 3 0xFF) (·.pc) = some 0x3FF := by decide +kernel

theorem test_B3_2_add_immediate_no_flag :
    stepped ((withWord 0x70FF).setReg 0 1) (fun t => (t.reg 0, t.reg VF)) = some (0, 0) := by decide +kernel
theorem test_B3_5_copy : stepped ((withWord 0x8130).setReg 3 0x42) (fun t => (t.reg 1, t.reg 3)) = some (0x42, 0x42) := by
  decide +kernel
theorem test_B3_6_or :
    stepped (((withWord 0x8121).setReg 1 0xF0).setReg 2 0x0F) (fun t => (t.reg 1, t.reg VF)) = some (0xFF, 0) := by
  decide +kernel
theorem test_B3_7_and : stepped (((withWord 0x8122).setReg 1 0xF0).setReg 2 0x3C) (·.reg 1) = some 0x30 := by decide +kernel
theorem test_B3_8_xor : stepped (((withWord 0x8123).setReg 1 0xF0).setReg 2 0x3C) (·.reg 1) = some 0xCC := by decide +kernel
theorem test_B3_9_add_carry :
    stepped (((withWord 0x8014).setReg 0 0xFF).setReg 1 2) (fun t => (t.reg 0, t.reg VF)) = some (1, 1) := by decide +kernel
theorem test_B3_30_add_into_VF : stepped (((withWord 0x8F14).setReg 15 0x10).setReg 1 0x20) (·.reg VF) = some 0 := by
  decide +kernel
theorem test_B3_13_subtract_borrow :
    stepped (((withWord 0x8015).setReg 0 1).setReg 1 2) (fun t => (t.reg 0, t.reg VF)) = some (0xFF, 0) := by decide +kernel
theorem test_B3_14_subtract_equal :
    stepped (((withWord 0x8015).setReg 0 7).setReg 1 7) (fun t => (t.reg 0, t.reg VF)) = some (0, 1) := by decide +kernel
theorem test_B3_16_shift_right :
    stepped (((withWord 0x8016).setReg 0 0xFF).setReg 1 0xAA) (fun t => (t.reg 0, t.reg 1, t.reg VF)) =
      some (0x7F, 0xAA, 1) := by decide +kernel
theorem test_B3_34_shift_right_VF : stepped ((withWord 0x8F06).setReg 15 5) (·.reg VF) = some 2 := by decide +kernel
theorem test_B3_19_reverse_subtract_equal :
    stepped (((withWord 0x8127).setReg 1 5).setReg 2 5) (fun t => (t.reg 1, t.reg VF)) = some (0, 0) := by decide +kernel
theorem test_B3_38_reverse_subtract_y_is_VF :
    stepped (((withWord 0x81F7).setReg 1 3).setReg 15 0x0A) (fun t => (t.reg 1, t.reg VF)) = some (7, 1) := by decide +kernel
theorem test_B3_22_shift_left :
    stepped (((withWord 0x801E).setReg 0 0x80).setReg 1 0xFF) (fun t => (t.reg 0, t.reg VF)) = some (0, 1) := by
  decide +kernel
theorem test_B3_25_random_masked : exec (.rnd 1 0) State.reset = .next (State.reset.draw8.2.setReg 1 0) := by
  simp [exec, execRnd]

theorem test_B4_1_load_index : stepped (withWord 0xA300) (·.I) = some 0x300 := by decide +kernel
theorem test_B4_4_add_index_wraps :
    stepped (((withWord 0xF11E).setI 0xFFFF).setReg 1 1) (fun t => (t.I, t.reg VF)) = some (0, 0) := by decide +kernel
theorem test_B4_7_glyph_not_reduced : stepped ((withWord 0xF129).setReg 1 0xFF) (·.I) = some 0x4FB := by decide +kernel
theorem test_B4_8_decimal :
    stepped (((withWord 0xFA33).setI 0x300).setReg 10 0x9C) (fun t => (t.loadBytes 0x300 3, t.I)) =
      some ([1, 5, 6], 0x300) := by decide +kernel
theorem test_B4_11_decimal_zero_unlists :
    stepped (((withWord 0xF133).storeBytes 0x300 [7, 7, 7]).setI 0x300) (·.mem) = some [(0x200, 0xF1), (0x201, 0x33)] := by
  decide +kernel
theorem test_B4_12_store :
    stepped ((((withWord 0xF255).setI 0x400).setReg 0 0x11).setReg 2 0x33) (·.loadBytes 0x400 4) =
      some [0x11, 0, 0x33, 0] := by decide +kernel
theorem test_B4_14_store_out_of_range :
    faulted ((withWord 0xFF55).setI 0xFF1) = some (.outOfRange 0x200 0xFF55) := by decide +kernel
theorem test_B4_16_load :
    stepped ((((withWord 0xF265).storeBytes 0x300 [9, 8, 7, 6]).setI 0x300).setReg 3 0x33)
      (fun t => (t.reg 0, t.reg 1, t.reg 2, t.reg 3)) = some (9, 8, 7, 0x33) := by decide +kernel
theorem test_B4_17_load_out_of_range :
    faulted ((withWord 0xF065).setI 0x1000) = some (.outOfRange 0x200 0xF065) := by decide +kernel

theorem test_B5_3_draw_collision :
    stepped ({ (withWord 0xD121).setByte 0x300 0xF0 with
        I := 0x300, fb := Screen.toggle (Screen.toggle Screen.blank 0 3) 0 4 })
      (fun t => ([t.pixel 0 0, t.pixel 0 2, t.pixel 0 3, t.pixel 0 4, t.pixel 0 5], t.reg VF)) =
      some ([true, true, false, true, false], 1) := by decide +kernel
theorem test_B5_7_draw_wraps :
    stepped (((((withWord 0xD012).storeBytes 0x210 [0xC0, 0x80]).setI 0x210).setReg 0 63).setReg 1 31)
      (fun t => ([t.pixel 31 63, t.pixel 31 0, t.pixel 0 63, t.pixel 0 0], t.reg VF)) =
      some ([true, true, true, false], 0) := by decide +kernel
theorem test_B5_8_draw_no_rows : stepped (((withWord 0xD120).setI 0x1000).setReg 15 7) (·.reg VF) = some 0 := by
  decide +kernel
theorem test_B5_10_draw_out_of_range :
    faulted ((withWord 0xD12F).setI 0xFF2) = some (.outOfRange 0x200 0xD12F) := by decide +kernel

theorem test_B6_1_key_pressed :
    stepped { (withWord 0xE49E).setReg 4 9 with keys := State.reset.keys.set 9 true } (·.pc) = some 0x204 := by decide +kernel
theorem test_B6_2_key_not_pressed :
    stepped { (withWord 0xE4A1).setReg 4 9 with keys := State.reset.keys.set 9 true } (·.pc) = some 0x202 := by decide +kernel
theorem test_B6_4_no_such_key : faulted ((withWord 0xE49E).setReg 4 0x10) = some (.outOfRange 0x200 0xE49E) := by
  decide +kernel
theorem test_B6_6_wait : stepped ((withWord 0xF40A).setReg 4 7) id = some ((withWord 0xF40A).setReg 4 7) := by decide +kernel
theorem test_B6_8_highest_key :
    stepped { withWord 0xF40A with keys := ((State.reset.keys.set 3 true).set 9 true).set 15 true }
      (fun t => (t.reg 4, t.pc)) = some (0x0F, 0x202) := by decide +kernel
theorem test_B6_9_read_delay : stepped ((withWord 0xF507).setDT 0x1E) (fun t => (t.reg 5, t.DT)) = some (0x1E, 0x1E) := by
  decide +kernel
theorem test_B6_10_set_timers :
    stepped ((withWord 0xF315).setReg 3 2) (fun t => (t.DT, t.ST)) = some (2, 0) ∧
    stepped ((withWord 0xF318).setReg 3 2) (fun t => (t.DT, t.ST)) = some (0, 2) := by decide +kernel

/-! ## Host commands -/

theorem test_B7_5_load_does_not_clear :
    (runCommands [.load [0xAA, 0xBB, 0xCC], .load [0x11]] State.reset).1.loadBytes 0x200 4 = [0x11, 0xBB, 0xCC, 0] := by
  decide +kernel
theorem test_B7_8_beeps :
    (runCommands [.tick, .tick, .tick] ((State.reset.setDT 2).setST 2)).2 = [.beep false, .beep true, .beep false] := by
  decide +kernel
theorem test_B7_11_set_key :
    (runCommands [.setKey 9 true, .setKey 3 true, .setKey 9 false] State.reset).1.keys = State.reset.keys.set 3 true := by
  decide +kernel
theorem test_font_glyph_7 : (State.reset.loadBytes 0x23 5) = [0xF0, 0x10, 0x20, 0x40, 0x40] := by decide +kernel

/-! ## Witnesses: for each statement with hypotheses, a state and operands that meet them, at the bounds of its clauses -/

/-- Sixteen return addresses pending. -/
def fullStack : List Word := List.replicate 16 0x202

/-- The fault an instruction ends in, and what it gives otherwise. -/
def execFault (i : Instr) (s : State) : Option Fault :=
  match exec i s with
  | .fault f => some f
  | _ => none
def execNext {α : Type} (i : Instr) (s : State) (f : State → α) : Option α :=
  match exec i s with
  | .next t => some (f t)
  | _ => none

theorem witness_DecodedWordIsReencodedExactly : decodeWord 0x81F7 = .ok (.subnReg 1 15) := by decide
theorem witness_DecoderFollowsTheOpcodeMap :
    (Instr.row (.loadRegs 0)).admits 0xF865 = true ∧ Instr.row (.loadRegs 0) ∈ opcodeRows ∧
    ∀ r ∈ opcodeRows, r.admits 0xF864 = false := by decide
theorem witness_StepRunsTheDecodedInstruction :
    let s := (State.reset.setPc 0xFFE).withFetchWord 16 0x1200
    s.fault = none ∧ s.pc.toNat + 1 < 4096 ∧
      decodeWord (s.byteAt s.pc.toNat ++ s.byteAt (s.pc.toNat + 1)) = .ok (.jp 0x200) := by decide +kernel
theorem witness_FetchReadsBigEndianOrFaults :
    (State.reset.setPc 0xFFF).pc.toNat + 1 ≥ 4096 ∧ (State.reset.setPc 0xFFF).fault = none ∧
    (State.reset.setPc 0xFFE).pc.toNat + 1 < 4096 := by decide +kernel
theorem witness_UnmatchedWordRaisesInvalidOpcode :
    State.reset.fault = none ∧ State.reset.fetchWord = some 0x0000 ∧ wordWellFormed 0x0000 = false := by decide +kernel
theorem witness_FaultRecordNamesTheFaultingInstruction :
    (withWord 0x00EE).fault = none ∧ step (withWord 0x00EE) = .fault (.stackUnderflow 0x200 0x00EE) ∧
    (State.reset.setPc 0xFFF).fault = none ∧ step (State.reset.setPc 0xFFF) = .fault (.outOfRange 0xFFF 0) :=
  ⟨rfl, rfl, rfl, rfl⟩
theorem witness_FaultedCoreExecutesNothing :
    { withWord 0x1200 with fault := some (.invalidOpcode 0x200 0) }.fault = some (.invalidOpcode 0x200 0) := rfl
theorem witness_InstructionFaultsExactlyWhenTheSpecSays_stack :
    execFault (.call 0x300) { State.reset with stack := fullStack } = some (.stackOverflow 0x1FE 0x2300) ∧
    execFault (.call 0x300) { State.reset with stack := fullStack.tail } = none ∧
    execFault .ret State.reset = some (.stackUnderflow 0x1FE 0x00EE) ∧
    execFault .ret { State.reset with stack := [0x202] } = none := by decide +kernel
theorem witness_InstructionFaultsExactlyWhenTheSpecSays_memory :
    execFault (.storeRegs 15) (State.reset.setI 0xFF0) = none ∧ (execFault (.storeRegs 15) (State.reset.setI 0xFF1)).isSome ∧
    execFault (.loadRegs 0) (State.reset.setI 0xFFF) = none ∧ (execFault (.loadRegs 0) (State.reset.setI 0x1000)).isSome ∧
    execFault (.ldB 0) (State.reset.setI 0xFFD) = none ∧ (execFault (.ldB 0) (State.reset.setI 0xFFE)).isSome ∧
    execFault (.drw 0 0 15) (State.reset.setI 0xFF1) = none ∧ (execFault (.drw 0 0 15) (State.reset.setI 0xFF2)).isSome ∧
    execFault (.drw 0 0 0) (State.reset.setI 0xFFFF) = none := by decide +kernel
theorem witness_InstructionFaultsExactlyWhenTheSpecSays_key :
    execFault (.skp 0) (State.reset.setReg 0 15) = none ∧ (execFault (.skp 0) (State.reset.setReg 0 16)).isSome ∧
    execFault (.sknp 0) (State.reset.setReg 0 15) = none ∧ (execFault (.sknp 0) (State.reset.setReg 0 16)).isSome := by
  decide +kernel
theorem inv_withWord_jump : (withWord 0x1200).Inv :=
  ⟨by unfold State.MemoryCanonical; decide +kernel, by unfold State.StackBounded; decide +kernel,
    fun _ => ⟨by decide +kernel, fun _ h => by cases h⟩⟩
theorem witness_StepKeepsTheInvariant :
    (withWord 0x1200).Inv ∧ step (withWord 0x1200) = .next (withWord 0x1200) := ⟨inv_withWord_jump, rfl⟩
theorem witness_CommandKeepsTheInvariant : (withWord 0x1200).Inv := inv_withWord_jump
theorem witness_InstructionWritesOnlyItsFootprint :
    exec (.jp 0x300) State.reset = .next (State.reset.setPc 0x300) := rfl
theorem witness_OnlySixInstructionsWriteVFImplicitly :
    exec (.ldImm 15 7) State.reset = .next (State.reset.setReg 15 7) ∧
    (State.reset.setReg 15 7).reg VF ≠ State.reset.reg VF := ⟨rfl, by decide +kernel⟩
theorem witness_NoInstructionReadsTheSoundTimer :
    exec (.ldSTVx 3) (State.reset.setST 9) = .next ((State.reset.setST 9).setST 0) ∧
    exec .ret (State.reset.setST 9) = .fault (.stackUnderflow 0x1FE 0x00EE) := ⟨rfl, rfl⟩
theorem witness_SelfJumpAndKeyWaitChangeNothing_jump :
    (withWord 0x1200).fault = none ∧ (withWord 0x1200).fetchWord = some (encode (.jp 0x200)) ∧
    (0x200 : Addr12).toNat = (withWord 0x1200).pc.toNat := by decide +kernel
theorem witness_SelfJumpAndKeyWaitChangeNothing_wait :
    (withWord 0xF40A).fault = none ∧ (withWord 0xF40A).fetchWord = some (encode (.ldVxK 4)) ∧
    ∀ k, (withWord 0xF40A).key k = false := by decide +kernel
theorem witness_CallPushesReturnAddress :
    { State.reset with stack := fullStack.tail }.sp < 16 ∧ { State.reset with stack := fullStack }.sp ≥ 16 := by
  decide +kernel
theorem witness_ReturnPopsIntoPc :
    { State.reset with stack := [0x202, 0x300] }.stack = [0x202] ++ [0x300] ∧ State.reset.stack = [] := ⟨rfl, rfl⟩
theorem witness_CallThenReturnRestoresPc :
    { State.reset with stack := fullStack.tail }.sp < 16 ∧
    execNext (.call 0x300) { State.reset with stack := fullStack.tail } (·.stack) =
      some { State.reset with stack := fullStack.tail ++ [0x200] }.stack := by decide +kernel
theorem witness_SixteenCallsSucceedAndTheNextOverflows :
    State.reset.sp = 0 ∧ (List.replicate 16 (0x300 : Addr12)).length = 16 := ⟨rfl, rfl⟩
theorem witness_AddAndSubtractSetResultAndFlag : (14 : Reg) ≠ VF ∧ (0 : Reg) ≠ VF := by decide
theorem witness_ShiftsByOneSetTheBitShiftedOut : (14 : Reg) ≠ VF ∧ (0 : Reg) ≠ VF := by decide
theorem witness_DecimalDigitsAreStoredAtI :
    (State.reset.setI 0xFFD).I.toNat + 2 ≤ 4095 ∧ (State.reset.setI 0xFFE).I.toNat + 2 > 4095 := by decide +kernel
theorem witness_RegistersAreStoredFromI :
    (State.reset.setI 0xFF0).I.toNat + (15 : Reg).val ≤ 4095 ∧ (State.reset.setI 0xFF1).I.toNat + (15 : Reg).val > 4095 := by
  decide +kernel
theorem witness_RegistersAreLoadedFromI :
    (State.reset.setI 0xFFF).I.toNat + (0 : Reg).val ≤ 4095 ∧ (State.reset.setI 0x1000).I.toNat + (0 : Reg).val > 4095 := by
  decide +kernel
theorem witness_StoreThenLoadRestoresRegisters :
    let s := (State.reset.setI 0xFF0).setReg 3 7
    s.I.toNat + (15 : Reg).val ≤ 4095 ∧ exec (.storeRegs 15) s = .next (s.storeBytes 0xFF0 (s.regsUpTo 15)) ∧
    (s.storeBytes 0xFF0 (s.regsUpTo 15)).I = s.I := ⟨by decide +kernel, rfl, rfl⟩
theorem witness_StoredBytesAreFetchedAtOnce_Fx55 :
    let s := ((State.reset.setI 0x1FF).setReg 1 0x12).setReg 2 0x34
    s.pc.toNat + 1 < 4096 ∧ s.I.toNat + (2 : Reg).val ≤ 4095 ∧
    execNext (.storeRegs 2) s State.fetchWord = some (some 0x1234) := by decide +kernel
theorem witness_StoredBytesAreFetchedAtOnce_one_byte :
    let s := (((State.reset.setI 0xFFF).setPc 0xFFE).setByte 0xFFE 0x12).setReg 0 0x34
    s.pc.toNat + 1 < 4096 ∧ s.I.toNat + (0 : Reg).val ≤ 4095 ∧
    execNext (.storeRegs 0) s State.fetchWord = some (some 0x1234) := by decide +kernel
theorem witness_StoredBytesAreFetchedAtOnce_Fx33 :
    let s := ((State.reset.setI 0xFFD).setPc 0xFFE).setReg 10 0x9C
    s.pc.toNat + 1 < 4096 ∧ s.I.toNat + 2 ≤ 4095 ∧
    execNext (.ldB 10) s State.fetchWord = some (some 0x0506) := by decide +kernel
theorem witness_StoredBytesAreFetchedAtOnce_load :
    State.reset.pc.toNat + 1 < 4096 ∧ State.reset.fault = none ∧ [(0x12 : Byte)].length ≤ 3584 ∧
    (command (.load [0x12]) State.reset).1.fetchWord = some 0x1200 := by decide +kernel
theorem witness_DrawXorsTheSpriteAndReportsCollision :
    (0 : Nibble) = 0 ∧ (State.reset.setI 0xFF1).I.toNat + (15 : Nibble).toNat - 1 ≤ 4095 ∧
    ((15 : Nibble) ≠ 0 ∧ (State.reset.setI 0xFF2).I.toNat + (15 : Nibble).toNat - 1 > 4095) := by decide +kernel
theorem witness_DrawingTwiceRestoresTheFramebuffer :
    let s := (State.reset.setReg 1 62)
    execNext (.drw 0 1 1) s (fun t => (decide (t.reg 0 = s.reg 0), decide (t.reg 1 = s.reg 1), s.pixel 30 0, t.pixel 30 0)) =
      some (true, true, false, true) := by decide +kernel
theorem witness_KeySkipsTestTheLatch :
    ((State.reset.setReg 4 15).reg 4).toNat = (15 : Key).val ∧ ((State.reset.setReg 4 16).reg 4).toNat ≥ 16 := by
  decide +kernel
theorem witness_WaitForKeyStoresTheHighestPressed :
    let s := (State.reset.setKey 3 true).setKey 9 true
    s.key 9 = true ∧ (∀ j : Key, 9 < j → s.key j = false) ∧ ∀ k : Key, State.reset.key k = false := by decide +kernel
theorem witness_LoadCopiesTheImageOrFaults :
    State.reset.fault = none ∧ (List.replicate 3584 (0xAA : Byte)).length ≤ 3584 ∧
    (List.replicate 3584 (0xAA : Byte))[3583]? = some 0xAA ∧ (List.replicate 3585 (0xAA : Byte)).length > 3584 :=
  ⟨rfl, by rw [List.length_replicate], List.getElem?_replicate_of_lt (by decide), by rw [List.length_replicate]; decide⟩
theorem witness_SetKeySetsOneLatch : State.reset.fault = none ∧ (3 : Key) ≠ 9 := ⟨rfl, by decide⟩
theorem witness_StepReturnsTheFramebufferOrFails :
    (withWord 0x1200).fault = none ∧ step (withWord 0x1200) = .next (withWord 0x1200) ∧
    State.reset.fault = none ∧ step State.reset = .fault (.invalidOpcode 0x200 0) := ⟨rfl, rfl, rfl, rfl⟩
theorem witness_TickCountsDownAndBeepsAtOne : (State.reset.setST 1).fault = none ∧ State.reset.fault = none := ⟨rfl, rfl⟩
theorem witness_BeepSoundsAtTheTickThatEndsTheSoundTimerOnly :
    State.reset.fault = none ∧ State.reset.ST = 0 ∧ (State.reset.setST 2).fault = none ∧
    (runCommands [.tick, .tick] State.reset).2 = [.beep false, .beep false] ∧
    (runCommands [.tick] (State.reset.setST 2)).2 = [.beep false] ∧
    (runCommands [.tick, .tick] (State.reset.setST 2)).2 = [.beep false, .beep true] := by decide +kernel
theorem witness_FaultedCoreStaysFaultedUntilReset :
    { State.reset with fault := some .loadOverflow }.fault = some .loadOverflow ∧
    Command.reset ∉ [Command.step, .tick, .load [0x12], .setKey 3 true] := by decide +kernel

end Sys2Proof.Tests
end

section
/-! SUPPORT. When an instruction that may fault or wait completes, and with which state: one lemma per arm of `exec`
whose result hangs on a condition. The other arms complete at once, by the definition of `exec`. -/

namespace Sys2Proof.Machine

/-- An arm behind a check completes exactly when the check holds. -/
theorem ite_raise_eq_next_iff (c : Bool) (cause : Word → Word → Fault) (i : Instr) (s t u : State) :
    (if c = true then .next u else raise cause i s) = .next t ↔ c = true ∧ t = u := by
  cases c with
  | false => simp [raise_ne_next]
  | true => simp [eq_comm]

/-- `00EE` (R132): it pops the last pending address into `pc`. -/
theorem exec_ret_eq_next_iff (s t : State) :
    exec .ret s = .next t ↔ ∃ older a, s.stack = older ++ [a] ∧ t = State.setPc { s with stack := older } a := by
  show execRet s = .next t ↔ _
  unfold execRet
  cases hp : s.pop with
  | none => simp [raise_ne_next, (State.pop_eq_none_iff s).1 hp]
  | some p =>
    obtain ⟨a, u⟩ := p
    obtain ⟨older, hs, rfl⟩ := (State.pop_eq_some_iff s u a).1 hp
    constructor
    · rintro h; cases h; exact ⟨older, a, hs, rfl⟩
    · rintro ⟨older', a', hs', rfl⟩
      obtain ⟨rfl, rfl⟩ := List.append_singleton_inj.1 (hs.symm.trans hs')
      rfl

/-- `2nnn` (R134): with a free place on the stack, it pushes `pc` and jumps. -/
theorem exec_call_eq_next_iff (nnn : Addr12) (s t : State) :
    exec (.call nnn) s = .next t ↔
      s.sp < 16 ∧ t = State.setPc { s with stack := s.stack ++ [s.pc] } (addrOf nnn) := by
  show execCall nnn s = .next t ↔ _
  unfold execCall
  cases hp : s.push s.pc with
  | none => simp [raise_ne_next, (State.push_eq_none_iff s s.pc).1 hp]
  | some u =>
    obtain ⟨hsp, rfl⟩ := (State.push_eq_some_iff s u s.pc).1 hp
    simp [hsp, eq_comm]

/-- The framebuffer and the collision flag `Dxyn` computes from a state (R191). -/
def State.plotted (s : State) (x y : Reg) (n : Nibble) : Screen × Bool :=
  plotRows (s.reg x) (s.reg y) 0 (s.loadBytes (s.dataAddr 0) n.toNat) (s.fb, false)

/-- `Dxyn` (R191): with every sprite byte inside memory, it writes the framebuffer and the flag. -/
theorem exec_drw_eq_next_iff (x y : Reg) (n : Nibble) (s t : State) :
    exec (.drw x y n) s = .next t ↔ inMemory (s.dataAddr 0) n.toNat = true ∧
      t = (s.setScreen (s.plotted x y n).1).setReg VF (flagByte (s.plotted x y n).2) :=
  ite_raise_eq_next_iff _ _ _ s t _

/-- `Fx33` (R173): with its three bytes inside memory, it stores the digits. -/
theorem exec_ldB_eq_next_iff (x : Reg) (s t : State) :
    exec (.ldB x) s = .next t ↔
      inMemory (s.dataAddr 0) 3 = true ∧ t = s.storeBytes (s.dataAddr 0) (decimalDigits (s.reg x)) :=
  ite_raise_eq_next_iff _ _ _ s t _

/-- `Fx55` (R174): with its `x + 1` bytes inside memory, it stores `V0` to `Vx`. -/
theorem exec_storeRegs_eq_next_iff (x : Reg) (s t : State) :
    exec (.storeRegs x) s = .next t ↔
      inMemory (s.dataAddr 0) (x.val + 1) = true ∧ t = s.storeBytes (s.dataAddr 0) (s.regsUpTo x) :=
  ite_raise_eq_next_iff _ _ _ s t _

/-- `Fx65` (R175): with its `x + 1` bytes inside memory, it loads `V0` to `Vx`. -/
theorem exec_loadRegs_eq_next_iff (x : Reg) (s t : State) :
    exec (.loadRegs x) s = .next t ↔
      inMemory (s.dataAddr 0) (x.val + 1) = true ∧ t = s.setRegsUpTo x fun i => s.byteAt (s.dataAddr i) :=
  ite_raise_eq_next_iff _ _ _ s t _

/-- `Ex9E` (R200): with a key number in `Vx`, it skips on the key's level. -/
theorem exec_skp_eq_next_iff (x : Reg) (s t : State) :
    exec (.skp x) s = .next t ↔ ∃ k, keyOf (s.reg x) = some k ∧ t = s.skipIf (s.key k) := by
  show execSkp x s = .next t ↔ _
  unfold execSkp
  cases keyOf (s.reg x) with
  | none => simp [raise_ne_next]
  | some k => simp [eq_comm]

/-- `ExA1` (R201): with a key number in `Vx`, it skips on the inverse of the key's level. -/
theorem exec_sknp_eq_next_iff (x : Reg) (s t : State) :
    exec (.sknp x) s = .next t ↔ ∃ k, keyOf (s.reg x) = some k ∧ t = s.skipIf (!s.key k) := by
  show execSknp x s = .next t ↔ _
  unfold execSknp
  cases keyOf (s.reg x) with
  | none => simp [raise_ne_next]
  | some k => simp [eq_comm]

/-- `Fx0A` (R202): it stores the key the scan found, or takes `pc` back by 2 when the scan found none. -/
theorem exec_ldVxK_eq_next_iff (x : Reg) (s t : State) :
    exec (.ldVxK x) s = .next t ↔
      (∃ k, s.scanKeys = some k ∧ t = s.setReg x (BitVec.ofNat 8 k.val)) ∨
      (s.scanKeys = none ∧ t = s.setPc (s.pc - 2)) := by
  show execLdVxK x s = .next t ↔ _
  unfold execLdVxK
  cases s.scanKeys with
  | none => simp [eq_comm]
  | some k => simp [eq_comm]

end Sys2Proof.Machine
end

section
/-! SUPPORT. The frame rules: one per update of the state, to be chained by `Frame.trans` into the frame of an
instruction; and what a frame says of the pieces later proofs ask for. -/

namespace Sys2Proof.Machine

/-- An update framed by `f` followed by another framed by `f` is framed by `f`. -/
theorem Frame.trans {f : Footprint} {s t u : State} (hst : Frame f s t) (htu : Frame f t u) : Frame f s u := by
  obtain ⟨r₁, p₁, i₁, d₁, o₁, m₁, k₁, c₁, n₁, y₁, e₁, g₁⟩ := hst
  obtain ⟨r₂, p₂, i₂, d₂, o₂, m₂, k₂, c₂, n₂, y₂, e₂, g₂⟩ := htu
  exact ⟨fun r h => (r₂ r h).trans (r₁ r h), fun h => (p₂ h).trans (p₁ h), fun h => (i₂ h).trans (i₁ h),
    fun h => (d₂ h).trans (d₁ h), fun h => (o₂ h).trans (o₁ h), fun a h => (m₂ a h).trans (m₁ a h),
    fun h => (k₂ h).trans (k₁ h), fun h r c => (c₂ h r c).trans (c₁ h r c), fun h => (n₂ h).trans (n₁ h),
    y₂.trans y₁, e₂.trans e₁, g₂.trans g₁⟩

section Rules
variable {f : Footprint} (s : State)

theorem Frame.setReg {x : Reg} (v : Byte) (hx : x ∈ f.regs) : Frame f s (s.setReg x v) :=
  ⟨fun _ hr => s.reg_setReg_ne v (ne_of_mem_of_not_mem hx hr).symm, by simp⟩

theorem Frame.setRegsUpTo {x : Reg} (g : Nat → Byte) (hx : ∀ r ≤ x, r ∈ f.regs) : Frame f s (s.setRegsUpTo x g) :=
  ⟨fun r hr => by rw [State.reg_setRegsUpTo, if_neg (mt (hx r) hr)], by simp⟩

theorem Frame.setPc (a : Word) (h : f.pc = true) : Frame f s (s.setPc a) := by simp [Frame, h]

theorem Frame.skipIf (c : Bool) (h : f.pc = true) : Frame f s (s.skipIf c) := by
  rw [State.skipIf_eq]; exact .setPc s _ h

theorem Frame.setI (a : Word) (h : f.index = true) : Frame f s (s.setI a) := by simp [Frame, h]

theorem Frame.setDT (v : Byte) (h : f.delay = true) : Frame f s (s.setDT v) := by simp [Frame, h]

theorem Frame.setST (v : Byte) (h : f.sound = true) : Frame f s (s.setST v) := by simp [Frame, h]

theorem Frame.setScreen (fb : Screen) (h : f.screen = true) : Frame f s (s.setScreen fb) := by simp [Frame, h]

theorem Frame.draw8 (h : f.free = true) : Frame f s s.draw8.2 := by simp [Frame, h]

theorem Frame.setStack (stack : List Word) (h : f.stack = true) : Frame f s { s with stack := stack } :=
  ⟨fun _ _ => rfl, fun _ => rfl, fun _ => rfl, fun _ => rfl, fun _ => rfl, fun _ _ => rfl, by simp [h],
    fun _ _ _ => rfl, fun _ => rfl, rfl, rfl, rfl⟩

theorem Frame.storeBytes (a : Nat) (bs : List Byte) (ha : f.memBase = a) (hlen : f.memLen = bs.length) :
    Frame f s (s.storeBytes a bs) := by
  have hbytes : ∀ c, c < f.memBase ∨ f.memBase + f.memLen ≤ c → (s.storeBytes a bs).byteAt c = s.byteAt c :=
    fun c hc => s.byteAt_storeBytes_outside a bs (by rwa [← ha, ← hlen])
  rw [State.storeBytes_eq] at hbytes ⊢
  exact ⟨fun _ _ => rfl, fun _ => rfl, fun _ => rfl, fun _ => rfl, fun _ => rfl, hbytes, fun _ => rfl,
    fun _ _ _ => rfl, fun _ => rfl, rfl, rfl, rfl⟩

theorem Frame.resultThenFlag {x : Reg} (v w : Byte) (hx : x ∈ f.regs) (hF : VF ∈ f.regs) :
    Frame f s (s.resultThenFlag x v w) :=
  (Frame.setReg s v hx).trans (.setReg _ w hF)

theorem Frame.flagThenResult {x : Reg} (v w : Byte) (hx : x ∈ f.regs) (hF : VF ∈ f.regs) :
    Frame f s (s.flagThenResult x v w) :=
  (Frame.setReg s w hF).trans (.setReg _ v hx)

end Rules

section Readings
variable {f : Footprint} {s t : State} (h : Frame f s t)
include h

theorem Frame.reg_eq {r : Reg} (hr : r ∉ f.regs) : t.reg r = s.reg r := by
  obtain ⟨hregs, -⟩ := h; exact hregs r hr

theorem Frame.pc_eq (hpc : f.pc = false) : t.pc = s.pc := by
  obtain ⟨-, h, -⟩ := h; exact h hpc

theorem Frame.stack_eq (hstack : f.stack = false) : t.stack = s.stack := by
  obtain ⟨-, -, -, -, -, -, h, -⟩ := h; exact h hstack

theorem Frame.fault_eq : t.fault = s.fault := by
  obtain ⟨-, -, -, -, -, -, -, -, -, -, h, -⟩ := h; exact h

theorem Frame.font_eq : t.font = s.font := by
  obtain ⟨-, -, -, -, -, -, -, -, -, -, -, h⟩ := h; exact h

end Readings

end Sys2Proof.Machine
end

section
/-! PROOF. The frame of all 34 instructions (O16) and, read off it, the writers of `VF` (O17). -/

namespace Sys2Proof.Machine

theorem mem_regsFrom0To (x r : Reg) : r ∈ regsFrom0To x ↔ r ≤ x := by simp [regsFrom0To]

/-- An instruction that completes writes at most its footprint. -/
theorem exec_frame {i : Instr} {s t : State} (h : exec i s = .next t) : Frame (footprint i s) s t := by
  cases i with
  | cls => cases h; exact .setScreen s _ rfl
  | ret =>
    obtain ⟨older, a, -, rfl⟩ := (exec_ret_eq_next_iff s t).1 h
    exact (Frame.setStack s older rfl).trans (.setPc _ a rfl)
  | call nnn =>
    obtain ⟨-, rfl⟩ := (exec_call_eq_next_iff nnn s t).1 h
    exact (Frame.setStack s _ rfl).trans (.setPc _ _ rfl)
  | jp nnn | jpV0 nnn => cases h; exact .setPc s _ rfl
  | seImm x kk | sneImm x kk | seReg x y | sneReg x y => cases h; exact .skipIf s _ rfl
  | skp x => obtain ⟨k, -, rfl⟩ := (exec_skp_eq_next_iff x s t).1 h; exact .skipIf s _ rfl
  | sknp x => obtain ⟨k, -, rfl⟩ := (exec_sknp_eq_next_iff x s t).1 h; exact .skipIf s _ rfl
  | ldImm x kk | addImm x kk | ldReg x y | orReg x y | andReg x y | xorReg x y | ldVxDT x =>
    cases h; exact .setReg s _ List.mem_cons_self
  | addReg x y | subReg x y => cases h; exact .resultThenFlag s _ _ (by simp [footprint]) (by simp [footprint])
  | shr x y | subnReg x y | shl x y => cases h; exact .flagThenResult s _ _ (by simp [footprint]) (by simp [footprint])
  | ldI nnn | addI x | ldF x => cases h; exact .setI s _ rfl
  | rnd x kk => cases h; exact (Frame.draw8 s rfl).trans (.setReg _ _ List.mem_cons_self)
  | drw x y n =>
    obtain ⟨-, rfl⟩ := (exec_drw_eq_next_iff x y n s t).1 h
    exact (Frame.setScreen s _ rfl).trans (.setReg _ _ List.mem_cons_self)
  | ldVxK x =>
    rcases (exec_ldVxK_eq_next_iff x s t).1 h with ⟨k, -, rfl⟩ | ⟨-, rfl⟩
    · exact .setReg s _ List.mem_cons_self
    · exact .setPc s _ rfl
  | ldDTVx x => cases h; exact .setDT s _ rfl
  | ldSTVx x => cases h; exact .setST s _ rfl
  | ldB x => obtain ⟨-, rfl⟩ := (exec_ldB_eq_next_iff x s t).1 h; exact .storeBytes s _ _ rfl rfl
  | storeRegs x =>
    obtain ⟨-, rfl⟩ := (exec_storeRegs_eq_next_iff x s t).1 h
    exact .storeBytes s _ _ rfl (s.regsUpTo_length x).symm
  | loadRegs x =>
    obtain ⟨-, rfl⟩ := (exec_loadRegs_eq_next_iff x s t).1 h
    exact .setRegsUpTo s _ fun r => (mem_regsFrom0To x r).2

/-- Settles O16: the frame of each instruction, chained from the frame rules of the updates it makes. -/
theorem instructionWritesOnlyItsFootprint : Obligations.InstructionWritesOnlyItsFootprint :=
  fun _ _ _ => exec_frame

/-- `VF` is the highest register. -/
theorem VF_le_iff (x : Reg) : VF ≤ x ↔ x = VF := by simp [VF, Fin.ext_iff, Fin.le_def]; omega

/-- Settles O17: by the frame, a changed `VF` is a register of the instruction's footprint, and the footprints name it
only where the statement says. -/
theorem onlySixInstructionsWriteVFImplicitly : Obligations.OnlySixInstructionsWriteVFImplicitly := by
  unfold Obligations.OnlySixInstructionsWriteVFImplicitly
  intro i s t h hne
  have hVF : VF ∈ (footprint i s).regs := by
    by_contra hnot
    exact hne ((exec_frame h).reg_eq hnot)
  cases i with
  | addReg x y | subReg x y | shr x y | subnReg x y | shl x y => exact .inl ⟨x, y, by simp⟩
  | drw x y n => exact .inr (.inl ⟨x, y, n, rfl⟩)
  | ldImm x kk | addImm x kk | rnd x kk =>
    obtain rfl := List.mem_singleton.1 hVF
    exact .inr (.inr (.inl ⟨0, kk, by simp⟩))
  | ldReg x y | orReg x y | andReg x y | xorReg x y =>
    obtain rfl := List.mem_singleton.1 hVF
    exact .inr (.inr (.inl ⟨y, 0, by simp⟩))
  | ldVxDT x | ldVxK x =>
    obtain rfl := List.mem_singleton.1 hVF
    exact .inr (.inr (.inr (by simp)))
  | loadRegs x =>
    obtain rfl := (VF_le_iff x).1 ((mem_regsFrom0To x VF).1 hVF)
    exact .inr (.inr (.inr (by simp)))
  | _ => cases hVF

end Sys2Proof.Machine
end

section
/-! PROOF. What an instruction can do to memory, to the call stack and to `pc`, each said once; from these, that a STEP
keeps the invariant (O13), and that reset establishes it (O12, O46). -/

namespace Sys2Proof.Machine

@[simp] theorem State.skipIf_mem (s : State) (c : Bool) : (s.skipIf c).mem = s.mem := by rw [State.skipIf_eq]; rfl

/-- An instruction leaves memory alone, or stores bytes from `I` on, all of them inside memory (R51, R52). -/
theorem exec_mem {i : Instr} {s t : State} (h : exec i s = .next t) :
    t.mem = s.mem ∨ ∃ bs, s.dataAddr 0 + bs.length ≤ 4096 ∧ t.mem = (s.storeBytes (s.dataAddr 0) bs).mem := by
  cases i with
  | ldB x =>
    obtain ⟨hin, rfl⟩ := (exec_ldB_eq_next_iff x s t).1 h
    exact .inr ⟨_, by simpa [inMemory_iff, decimalDigits] using hin, rfl⟩
  | storeRegs x =>
    obtain ⟨hin, rfl⟩ := (exec_storeRegs_eq_next_iff x s t).1 h
    exact .inr ⟨_, by simpa [inMemory_iff, State.regsUpTo_length] using hin, rfl⟩
  | ret => obtain ⟨older, a, -, rfl⟩ := (exec_ret_eq_next_iff s t).1 h; exact .inl rfl
  | call nnn => obtain ⟨-, rfl⟩ := (exec_call_eq_next_iff nnn s t).1 h; exact .inl rfl
  | drw x y n => obtain ⟨-, rfl⟩ := (exec_drw_eq_next_iff x y n s t).1 h; exact .inl rfl
  | loadRegs x => obtain ⟨-, rfl⟩ := (exec_loadRegs_eq_next_iff x s t).1 h; exact .inl rfl
  | skp x => obtain ⟨k, -, rfl⟩ := (exec_skp_eq_next_iff x s t).1 h; exact .inl (s.skipIf_mem _)
  | sknp x => obtain ⟨k, -, rfl⟩ := (exec_sknp_eq_next_iff x s t).1 h; exact .inl (s.skipIf_mem _)
  | seImm x kk | sneImm x kk | seReg x y | sneReg x y => cases h; exact .inl (s.skipIf_mem _)
  | ldVxK x => rcases (exec_ldVxK_eq_next_iff x s t).1 h with ⟨k, -, rfl⟩ | ⟨-, rfl⟩ <;> exact .inl rfl
  | _ => cases h; exact .inl rfl

/-- An instruction leaves the call stack alone, pushes `pc` with fewer than 16 addresses pending, or pops (R29). -/
theorem exec_stack {i : Instr} {s t : State} (h : exec i s = .next t) :
    t.stack = s.stack ∨ (s.sp < 16 ∧ t.stack = s.stack ++ [s.pc]) ∨ ∃ a, s.stack = t.stack ++ [a] := by
  cases i with
  | ret => obtain ⟨older, a, hs, rfl⟩ := (exec_ret_eq_next_iff s t).1 h; exact .inr (.inr ⟨a, hs⟩)
  | call nnn => obtain ⟨hsp, rfl⟩ := (exec_call_eq_next_iff nnn s t).1 h; exact .inr (.inl ⟨hsp, rfl⟩)
  | _ => exact .inl ((exec_frame h).stack_eq rfl)

theorem State.skipIf_pc_mem (s : State) (c : Bool) : (s.skipIf c).pc ∈ [s.pc, s.pc + 2, s.pc - 2] := by
  cases c <;> simp [State.skipIf]

/-- Where an instruction can leave `pc`: at the next instruction, one further, back at itself, at a literal address, at
one offset by `V0`, or at a pending return address (R25). -/
theorem exec_pc {i : Instr} {s t : State} (h : exec i s = .next t) :
    t.pc ∈ [s.pc, s.pc + 2, s.pc - 2] ∨ (∃ nnn, t.pc = addrOf nnn) ∨ (∃ nnn, t.pc = offsetTarget nnn (s.reg 0)) ∨
      t.pc ∈ s.stack := by
  cases i with
  | jp nnn => cases h; exact .inr (.inl ⟨nnn, rfl⟩)
  | jpV0 nnn => cases h; exact .inr (.inr (.inl ⟨nnn, rfl⟩))
  | call nnn => obtain ⟨-, rfl⟩ := (exec_call_eq_next_iff nnn s t).1 h; exact .inr (.inl ⟨nnn, rfl⟩)
  | ret => obtain ⟨older, a, hs, rfl⟩ := (exec_ret_eq_next_iff s t).1 h; exact .inr (.inr (.inr (by simp [hs])))
  | seImm x kk | sneImm x kk | seReg x y | sneReg x y => cases h; exact .inl (s.skipIf_pc_mem _)
  | skp x => obtain ⟨k, -, rfl⟩ := (exec_skp_eq_next_iff x s t).1 h; exact .inl (s.skipIf_pc_mem _)
  | sknp x => obtain ⟨k, -, rfl⟩ := (exec_sknp_eq_next_iff x s t).1 h; exact .inl (s.skipIf_pc_mem _)
  | ldVxK x => rcases (exec_ldVxK_eq_next_iff x s t).1 h with ⟨k, -, rfl⟩ | ⟨-, rfl⟩ <;> exact .inl (by simp)
  | _ => exact .inl (by simp [(exec_frame h).pc_eq rfl])

/-- An instruction keeps memory in its canonical form (R28). -/
theorem exec_keeps_canonical {i : Instr} {s t : State} (h : exec i s = .next t) (hs : s.MemoryCanonical) :
    t.MemoryCanonical := by
  have hfont : t.font = s.font := (exec_frame h).font_eq
  rcases exec_mem h with hmem | ⟨bs, hlen, hmem⟩
  · rwa [State.MemoryCanonical, hfont, hmem]
  · have hstored := s.storeBytes_canonical (s.dataAddr 0) bs hlen hs
    rw [State.MemoryCanonical, State.storeBytes_eq] at hstored
    rwa [State.MemoryCanonical, hfont, hmem]

/-- An instruction keeps the call stack within 16 addresses (R29). -/
theorem exec_keeps_stackBounded {i : Instr} {s t : State} (h : exec i s = .next t) (hs : s.StackBounded) :
    t.StackBounded := by
  simp only [State.StackBounded, State.sp] at hs ⊢
  rcases exec_stack h with hst | ⟨hsp, hst⟩ | ⟨a, hst⟩
  · rwa [hst]
  · rw [State.sp] at hsp
    rw [hst, List.length_append, List.length_singleton]
    omega
  · rw [hst, List.length_append] at hs
    omega

/-- An instruction keeps every pending return address at most 0x1000, if the address after it is (R25). -/
theorem exec_keeps_returnAddresses {i : Instr} {s t : State} (h : exec i s = .next t) (hpc : s.pc.toNat ≤ 0x1000)
    (hs : ∀ a ∈ s.stack, a.toNat ≤ 0x1000) : ∀ a ∈ t.stack, a.toNat ≤ 0x1000 := by
  intro a ha
  rcases exec_stack h with hst | ⟨-, hst⟩ | ⟨b, hst⟩
  · exact hs a (hst ▸ ha)
  · rw [hst, List.mem_append, List.mem_singleton] at ha
    rcases ha with ha | rfl
    · exact hs a ha
    · exact hpc
  · exact hs a (by simp [hst, ha])

theorem addrOf_toNat (nnn : Addr12) : (addrOf nnn).toNat = nnn.toNat := by
  have := nnn.isLt
  simp only [addrOf, BitVec.toNat_setWidth]
  omega

/-- The target of `Bnnn` is the sum as a natural number: it never wraps (R139). -/
theorem offsetTarget_toNat (nnn : Addr12) (v : Byte) : (offsetTarget nnn v).toNat = nnn.toNat + v.toNat := by
  have := nnn.isLt
  have := v.isLt
  simp only [offsetTarget, BitVec.toNat_add, BitVec.toNat_setWidth]
  omega

/-- An instruction fetched from inside memory leaves `pc` at most 0x10FE, the bound being reached by `Bnnn` (R25). -/
theorem exec_pc_le {i : Instr} {s t : State} (h : exec i s = .next t) (hlo : 2 ≤ s.pc.toNat)
    (hhi : s.pc.toNat ≤ 0x1000) (hs : ∀ a ∈ s.stack, a.toNat ≤ 0x1000) : t.pc.toNat ≤ 0x10FE := by
  rcases exec_pc h with hpc | ⟨nnn, hpc⟩ | ⟨nnn, hpc⟩ | hpc
  · have hback : (s.pc - 2).toNat = s.pc.toNat - 2 := by bv_omega
    have hskip : (s.pc + 2).toNat = s.pc.toNat + 2 := by bv_omega
    simp only [List.mem_cons, List.not_mem_nil, or_false] at hpc
    rcases hpc with hpc | hpc | hpc <;> rw [hpc] <;> omega
  · have := nnn.isLt
    rw [hpc, addrOf_toNat]
    omega
  · have := nnn.isLt
    have := (s.reg 0).isLt
    rw [hpc, offsetTarget_toNat]
    omega
  · have := hs _ hpc
    omega

/-- A STEP that completes fetched from inside memory, so the address after its instruction is from 2 to 0x1000. -/
theorem advance_pc_bounds {s : State} {i : Instr} (h : s.nextInstr = .ok i) :
    2 ≤ s.advance.pc.toNat ∧ s.advance.pc.toNat ≤ 0x1000 := by
  obtain ⟨iw, hfetch, -⟩ := (s.nextInstr_ok_iff i).1 h
  have hlt : s.pc.toNat < 4095 := by
    by_contra hge
    simp [(s.fetchWord_eq_none_iff).2 (by omega)] at hfetch
  rw [State.advance_pc]
  constructor <;> bv_omega

/-- Settles O13: a STEP that completes runs one instruction on the advanced state, and each clause of the invariant is
kept by every instruction. -/
theorem stepKeepsTheInvariant : Obligations.StepKeepsTheInvariant := by
  unfold Obligations.StepKeepsTheInvariant
  intro s t ⟨hmem, hstack, hpc⟩ hstep
  obtain ⟨hfault, i, hnext, hexec⟩ := step_eq_next hstep
  obtain ⟨hlo, hhi⟩ := advance_pc_bounds hnext
  obtain ⟨-, haddr⟩ := hpc hfault
  exact ⟨⟨exec_keeps_canonical hexec hmem, exec_keeps_stackBounded hexec hstack,
    fun _ => ⟨exec_pc_le hexec hlo hhi haddr, exec_keeps_returnAddresses hexec hhi haddr⟩⟩,
    (exec_frame hexec).fault_eq.trans hfault⟩

/-- Settles O12: reset lists no cell, pends no address and sets `pc` to 0x200. -/
theorem resetStateMeetsTheInvariant : Obligations.ResetStateMeetsTheInvariant := by
  unfold Obligations.ResetStateMeetsTheInvariant
  refine ⟨Memory.wf_nil _, ?_, fun _ => ⟨?_, ?_⟩⟩
  · simp [State.StackBounded, State.sp, State.reset]
  · decide
  · simp [State.reset]

/-- Settles O46: memory lists no cell after reset, so it reads as the font and then as 0; every other value is the
table's by definition. -/
theorem resetValuesAreTheTables : Obligations.ResetValuesAreTheTables := by
  unfold Obligations.ResetValuesAreTheTables
  refine ⟨fun r => ?_, rfl, rfl, rfl, rfl, unlistedByte_font _, fun a ha _ => unlistedByte_zero _ ha, rfl,
    fun k => ?_, Screen.lit_blank, rfl⟩
  · simp [State.reg, State.reset, State.resetWith]
  · simp [State.key, State.reset, State.resetWith]

end Sys2Proof.Machine
end

section
/-! PROOF. No instruction reads the sound timer (O18): each operation commutes with setting it, so the outcome of an
instruction, but for the `ST` in it, does not hang on the `ST` it began with. -/

namespace Sys2Proof.Machine

@[simp] theorem State.loadBytes_setST (s : State) (v : Byte) (a n : Nat) :
    (s.setST v).loadBytes a n = s.loadBytes a n := by
  induction n generalizing a with
  | zero => rfl
  | succ n ih => simp [State.loadBytes, ih]

@[simp] theorem State.storeBytes_setST (s : State) (v : Byte) (a : Nat) (bs : List Byte) :
    (s.setST v).storeBytes a bs = (s.storeBytes a bs).setST v := by
  induction bs generalizing s a with
  | nil => rfl
  | cons b bs ih => exact ih (s.setByte a b) (a + 1)

@[simp] theorem State.pop_setST (s : State) (v : Byte) :
    (s.setST v).pop = s.pop.map fun p => (p.1, p.2.setST v) := by
  unfold State.pop
  rw [State.setST_stack]
  cases s.stack.getLast? <;> rfl

@[simp] theorem State.push_setST (s : State) (v : Byte) (a : Word) :
    (s.setST v).push a = (s.push a).map (·.setST v) := by
  unfold State.push
  rw [State.setST_sp]
  split <;> rfl

/-- An outcome with the sound timer of its state, if it has one, put to 0. -/
def forgetST : Host.Outcome State Fault Refusal → Host.Outcome State Fault Refusal
  | .next s => .next (s.setST 0)
  | .fault f => .fault f
  | .refused r => .refused r

theorem forgetST_eq_next {o : Host.Outcome State Fault Refusal} {t : State} (h : forgetST o = .next (t.setST 0)) :
    ∃ u, o = .next u ∧ u.setST t.ST = t := by
  cases o with
  | next u =>
    have hu : u.setST 0 = t.setST 0 := by simpa [forgetST] using h
    exact ⟨u, rfl, congrArg (·.setST t.ST) hu⟩
  | fault f => cases h
  | refused r => cases h

theorem forgetST_eq_fault {o : Host.Outcome State Fault Refusal} {f : Fault} (h : forgetST o = .fault f) :
    o = .fault f := by
  cases o with
  | next u => cases h
  | fault g => exact h
  | refused r => cases h

theorem forgetST_skipIf (s : State) (v : Byte) (c : Bool) :
    forgetST (.next ((s.setST v).skipIf c)) = forgetST (.next (s.skipIf c)) := by cases c <;> rfl

theorem forgetST_ite (c : Bool) {o o' p p' : Host.Outcome State Fault Refusal} (ho : forgetST o = forgetST o')
    (hp : forgetST p = forgetST p') :
    forgetST (if c = true then o else p) = forgetST (if c = true then o' else p') := by
  cases c with
  | false => exact hp
  | true => exact ho

/-- But for the `ST` in it, the outcome of an instruction is the same whatever the sound timer held. -/
theorem forgetST_exec_setST (i : Instr) (s : State) (v : Byte) :
    forgetST (exec i (s.setST v)) = forgetST (exec i s) := by
  cases i with
  | ret =>
    simp only [exec, execRet, State.pop_setST]
    cases s.pop <;> rfl
  | call nnn =>
    simp only [exec, execCall, State.push_setST, State.setST_pc]
    cases s.push s.pc <;> rfl
  | seImm x kk | sneImm x kk | seReg x y | sneReg x y => exact forgetST_skipIf s v _
  | skp x =>
    simp only [exec, execSkp, State.setST_reg, State.setST_key]
    cases keyOf (s.reg x) with
    | none => rfl
    | some k => exact forgetST_skipIf s v _
  | sknp x =>
    simp only [exec, execSknp, State.setST_reg, State.setST_key]
    cases keyOf (s.reg x) with
    | none => rfl
    | some k => exact forgetST_skipIf s v _
  | drw x y n =>
    refine forgetST_ite _ ?_ rfl
    rw [State.setST_reg, State.setST_reg, State.setST_dataAddr, State.loadBytes_setST]
    rfl
  | ldVxK x =>
    show forgetST (execLdVxK x (s.setST v)) = forgetST (execLdVxK x s)
    unfold execLdVxK
    rw [show (s.setST v).scanKeys = s.scanKeys from rfl]
    cases s.scanKeys <;> rfl
  | ldB x | storeRegs x =>
    refine forgetST_ite _ ?_ rfl
    rw [State.storeBytes_setST]
    rfl
  | loadRegs x => exact forgetST_ite _ rfl rfl
  | _ => rfl

/-- Settles O18: the two outcomes agree but for the `ST` in them. -/
theorem noInstructionReadsTheSoundTimer : Obligations.NoInstructionReadsTheSoundTimer := by
  unfold Obligations.NoInstructionReadsTheSoundTimer
  intro i s v
  have hsame : forgetST (exec i { s with ST := v }) = forgetST (exec i s) := forgetST_exec_setST i s v
  refine ⟨fun t ht => ?_, fun f hf => ?_⟩
  · rw [ht] at hsame
    exact forgetST_eq_next hsame
  · rw [hf] at hsame
    exact forgetST_eq_fault hsame

end Sys2Proof.Machine
end

section
/-! PROOF. The next fetch after a store (O39): it reads through the stored bytes, whichever instruction or command stored
them, because storing bytes moves nothing but memory (R53, R54, R62). -/

namespace Sys2Proof.Machine

/-- Only the stored bytes inside the range matter to what is laid over memory. -/
theorem State.overlaid_congr (s : State) (base : Nat) {len : Nat} {v w : Nat → Byte} (h : ∀ k < len, v k = w k)
    (a : Nat) : s.overlaid base len v a = s.overlaid base len w a := by
  unfold State.overlaid
  split
  · exact h _ (by omega)
  · rfl

/-- After a store of bytes `v 0`, `v 1`, …, the fetch reads each of its two bytes from the store where the store covers
it and from the old memory elsewhere. -/
theorem State.fetchWord_storeBytes (s : State) (hpc : s.pc.toNat + 1 < 4096) (base : Nat) {bs : List Byte} {len : Nat}
    {v : Nat → Byte} (hlen : bs.length = len) (hv : ∀ k (hk : k < bs.length), bs[k] = v k) :
    (s.storeBytes base bs).fetchWord =
      some (s.overlaid base len v s.pc.toNat ++ s.overlaid base len v (s.pc.toNat + 1)) := by
  subst hlen
  have hsame : (s.storeBytes base bs).pc = s.pc := by rw [State.storeBytes_eq]
  have hread (a : Nat) : (s.storeBytes base bs).byteAt a = s.overlaid base bs.length v a := by
    rw [State.byteAt_storeBytes_overlaid]
    exact s.overlaid_congr base (fun k hk => by simp [hk, hv]) a
  rw [State.fetchWord_of_lt (hsame ▸ hpc), hsame, hread, hread]
  rfl

/-- Bytes from `I` on that end by 4095 pass the bounds rule (R52). -/
theorem State.inMemory_of_le (s : State) {len : Nat} (h : s.I.toNat + len ≤ 4096) : inMemory (s.dataAddr 0) len = true :=
  (inMemory_iff _ _).2 (.inr h)

/-- The `k`-th of the three digits, counted from the hundreds, is the one of weight `10 ^ (2 - k)` (R173). -/
theorem decimalDigits_getElem (b : Byte) (k : Nat) (hk : k < (decimalDigits b).length) :
    (decimalDigits b)[k] = BitVec.ofNat 8 (b.toNat / 10 ^ (2 - k) % 10) := by
  have hb := b.isLt
  apply BitVec.eq_of_toNat_eq
  match k, hk with
  | 0, _ | 1, _ | 2, _ => simp [decimalDigits]; omega

/-- A byte of `V[0..x]` is the register its place names. -/
theorem State.regsUpTo_getElem_ofNat (s : State) (x : Reg) (k : Nat) (hk : k < (s.regsUpTo x).length) :
    (s.regsUpTo x)[k] = s.reg (Fin.ofNat 16 k) := by
  have hlen := s.regsUpTo_length x
  have hplace : (Fin.ofNat 16 k).val = k := Nat.mod_eq_of_lt (by omega)
  rw [State.regsUpTo_getElem]
  exact congrArg s.reg (Fin.ext hplace.symm)

/-- LOAD of an image that fits, on a running core, stores the image from 0x200 up (R223). -/
theorem command_load_of_fits {s : State} (hf : s.fault = none) {image : List Byte} (h : image.length ≤ 3584) :
    command (.load image) s = (s.storeBytes 0x200 image, .done) := by
  have hfits : ¬ imageTooLong image = true := by rw [imageTooLong_iff]; omega
  rw [command_of_running hf, State.accept, if_neg hfits]
  rfl

/-- Settles O39: each of the three stores is one `storeBytes` on the state before it, and a fetch from such a state reads
the stored bytes laid over the old ones. -/
theorem storedBytesAreFetchedAtOnce : Obligations.StoredBytesAreFetchedAtOnce := by
  unfold Obligations.StoredBytesAreFetchedAtOnce
  intro s hpc
  refine ⟨fun x hx => ?_, fun x hx => ?_, fun image hf hfits => ?_⟩
  · exact ⟨_, _, (exec_storeRegs_eq_next_iff x s _).2 ⟨s.inMemory_of_le (by omega), rfl⟩,
      s.fetchWord_storeBytes hpc _ (s.regsUpTo_length x) (s.regsUpTo_getElem_ofNat x), rfl⟩
  · exact ⟨_, _, (exec_ldB_eq_next_iff x s _).2 ⟨s.inMemory_of_le (by omega), rfl⟩,
      s.fetchWord_storeBytes hpc _ rfl (decimalDigits_getElem (s.reg x)), rfl⟩
  · exact ⟨_, _, command_load_of_fits hf hfits,
      s.fetchWord_storeBytes hpc _ rfl (fun k hk => by simp [hk]), rfl⟩

end Sys2Proof.Machine
end

section
/-! PROOF. The decoder and the encoder undo each other (O1, O2), the decoder agrees with the masks of the opcode map (O3),
and it reads the spec's example words as the spec does (O4) (30_encoding.md R82, R86 to R89). -/

namespace Sys2Proof

/-! ### A word of a format, from the fields its pattern fixes -/

theorem encodeNNN_of_fieldD1 {iw : Word} {d1 : Nibble} (h : fieldD1 iw = d1) : encodeNNN d1 (fieldNNN iw) = iw :=
  h ▸ encodeNNN_fields iw

theorem encodeXKK_of_fieldD1 {iw : Word} {d1 : Nibble} (h : fieldD1 iw = d1) :
    encodeXKK d1 (fieldX iw) (fieldKK iw) = iw :=
  h ▸ encodeXKK_fields iw

theorem encodeXKK_of_fields {iw : Word} {d1 : Nibble} {kk : Byte} (h : fieldD1 iw = d1) (hkk : fieldKK iw = kk) :
    encodeXKK d1 (fieldX iw) kk = iw :=
  hkk ▸ encodeXKK_of_fieldD1 h

theorem encodeXYN_of_fieldD1 {iw : Word} {d1 : Nibble} (h : fieldD1 iw = d1) :
    encodeXYN d1 (fieldX iw) (fieldY iw) (fieldN iw) = iw :=
  h ▸ encodeXYN_fields iw

theorem encodeXYN_of_fields {iw : Word} {d1 d4 : Nibble} (h : fieldD1 iw = d1) (hn : fieldN iw = d4) :
    encodeXYN d1 (fieldX iw) (fieldY iw) d4 = iw :=
  hn ▸ encodeXYN_of_fieldD1 h

/-! ### The round trip -/

/-- Settles O1: each format's word holds the fields the decoder reads back, the selector of its family among them. -/
theorem encodedInstructionDecodesToItself : Obligations.EncodedInstructionDecodesToItself := by
  unfold Obligations.EncodedInstructionDecodesToItself
  intro i
  cases i with
  | cls | ret => rfl
  | jp nnn | call nnn | ldI nnn | jpV0 nnn => simp [encode, decodeWord]
  | seImm x kk | sneImm x kk | ldImm x kk | addImm x kk | rnd x kk => simp [encode, decodeWord]
  | seReg x y | sneReg x y | drw x y n => simp [encode, decodeWord]
  | ldReg x y | orReg x y | andReg x y | xorReg x y | addReg x y | subReg x y | shr x y | subnReg x y | shl x y =>
    simp [encode, decodeWord, decodeFamily8]
  | skp x | sknp x => simp [encode, decodeWord, decodeFamilyE]
  | ldVxDT x | ldVxK x | ldDTVx x | ldSTVx x | addI x | ldF x | ldB x | storeRegs x | loadRegs x =>
    simp [encode, decodeWord, decodeFamilyF]

/-- What an answer of the decoder says of the word it was given: an instruction that encodes to the word, or a rejection
that names it. -/
def AnswersFor (iw : Word) : Except Reject Instr → Prop
  | .ok i => encode i = iw
  | .error r => r = .invalidWord iw

theorem decodeFamily0_answersFor (iw : Word) : AnswersFor iw (decodeFamily0 iw) := by
  unfold decodeFamily0
  split_ifs with hcls hret
  · exact hcls.symm
  · exact hret.symm
  · rfl

theorem decodeFamily8_answersFor {iw : Word} (h : fieldD1 iw = 0x8) : AnswersFor iw (decodeFamily8 iw) := by
  unfold decodeFamily8
  split
  case h_10 => rfl
  all_goals exact encodeXYN_of_fields h ‹_›

theorem decodeFamilyE_answersFor {iw : Word} (h : fieldD1 iw = 0xE) : AnswersFor iw (decodeFamilyE iw) := by
  unfold decodeFamilyE
  split
  case h_3 => rfl
  all_goals exact encodeXKK_of_fields h ‹_›

theorem decodeFamilyF_answersFor {iw : Word} (h : fieldD1 iw = 0xF) : AnswersFor iw (decodeFamilyF iw) := by
  unfold decodeFamilyF
  split
  case h_10 => rfl
  all_goals exact encodeXKK_of_fields h ‹_›

/-- Decoding loses no bit of a word: it answers with an instruction of that very word, or rejects that very word. -/
theorem decodeWord_answersFor (iw : Word) : AnswersFor iw (decodeWord iw) := by
  unfold decodeWord
  dsimp only
  split
  case h_1 => exact decodeFamily0_answersFor iw
  case h_2 | h_3 | h_11 | h_12 => exact encodeNNN_of_fieldD1 ‹_›
  case h_4 | h_5 | h_7 | h_8 | h_13 => exact encodeXKK_of_fieldD1 ‹_›
  case h_6 | h_10 =>
    split_ifs with hn
    · exact encodeXYN_of_fields ‹_› hn
    · rfl
  case h_9 => exact decodeFamily8_answersFor ‹_›
  case h_14 => exact encodeXYN_of_fieldD1 ‹_›
  case h_15 => exact decodeFamilyE_answersFor ‹_›
  case h_16 =>
    have hF : fieldD1 iw = 0xF := by simp only [imp_false] at *; bv_omega
    exact decodeFamilyF_answersFor hF

/-- Settles O2: an instruction the decoder answers with encodes to the word. -/
theorem decodedWordIsReencodedExactly : Obligations.DecodedWordIsReencodedExactly := by
  unfold Obligations.DecodedWordIsReencodedExactly
  intro iw i h
  have hanswer := decodeWord_answersFor iw
  rwa [h] at hanswer

/-! ### The opcode map -/

open Laws.EncodesItsRow in
/-- Every word of an instruction is an instance of the instruction's row (R82). -/
theorem row_admits_encode : ∀ i : Instr, i.row.admits (encode i) = true
  | .cls => cls | .ret => ret | .jp nnn => jp nnn | .call nnn => call nnn
  | .seImm x kk => seImm x kk | .sneImm x kk => sneImm x kk | .seReg x y => seReg x y
  | .ldImm x kk => ldImm x kk | .addImm x kk => addImm x kk
  | .ldReg x y => ldReg x y | .orReg x y => orReg x y | .andReg x y => andReg x y | .xorReg x y => xorReg x y
  | .addReg x y => addReg x y | .subReg x y => subReg x y | .shr x y => shr x y | .subnReg x y => subnReg x y
  | .shl x y => shl x y | .sneReg x y => sneReg x y
  | .ldI nnn => ldI nnn | .jpV0 nnn => jpV0 nnn | .rnd x kk => rnd x kk | .drw x y n => drw x y n
  | .skp x => skp x | .sknp x => sknp x | .ldVxDT x => ldVxDT x | .ldVxK x => ldVxK x | .ldDTVx x => ldDTVx x
  | .ldSTVx x => ldSTVx x | .addI x => addI x | .ldF x => ldF x | .ldB x => ldB x
  | .storeRegs x => storeRegs x | .loadRegs x => loadRegs x

/-- A row of fixed words admits the one word. -/
theorem eq_of_admits_FFFF {p : String} {m iw : Word} (h : OpcodeRow.admits ⟨p, m, 0xFFFF⟩ iw = true) : iw = m := by
  have hm : iw &&& 0xFFFF#16 = m := eq_of_beq h
  rw [← hm]
  exact BitVec.and_allOnes.symm

/-- A row whose mask is that of formats `NNN`, `XKK` and `XYN` fixes `d1`. -/
theorem fieldD1_of_admits_F000 {p : String} {m iw : Word} (h : OpcodeRow.admits ⟨p, m, 0xF000⟩ iw = true) :
    fieldD1 iw = m.extractLsb' 12 4 := by
  have hm : iw &&& 0xF000#16 = m := eq_of_beq h
  rw [← hm, and_F000]
  exact (fieldD1_encodeXYN _ _ _ _).symm

/-- A row whose mask is that of format `XY` fixes `d1` and `d4`. -/
theorem fields_of_admits_F00F {p : String} {m iw : Word} (h : OpcodeRow.admits ⟨p, m, 0xF00F⟩ iw = true) :
    fieldD1 iw = m.extractLsb' 12 4 ∧ fieldN iw = m.extractLsb' 0 4 := by
  have hm : iw &&& 0xF00F#16 = m := eq_of_beq h
  rw [← hm, and_F00F]
  exact ⟨(fieldD1_encodeXYN _ _ _ _).symm, (fieldN_encodeXYN _ _ _ _).symm⟩

/-- `kk` is made of `d3` and `d4` (R81). -/
theorem fieldKK_encodeXYN (d1 : Nibble) (x : Reg) (iw : Word) :
    fieldKK (encodeXYN d1 x (fieldY iw) (fieldN iw)) = fieldKK iw := by
  apply BitVec.eq_of_toNat_eq
  rw [fieldKK_toNat, fieldKK_toNat, encodeXYN_toNat, fieldY_val, fieldN_toNat]
  omega

/-- A row whose mask is that of format `X` fixes `d1` and `kk`. -/
theorem fields_of_admits_F0FF {p : String} {m iw : Word} (h : OpcodeRow.admits ⟨p, m, 0xF0FF⟩ iw = true) :
    fieldD1 iw = m.extractLsb' 12 4 ∧ fieldKK iw = m.extractLsb' 0 8 := by
  have hm : iw &&& 0xF0FF#16 = m := eq_of_beq h
  rw [← hm, and_F0FF]
  exact ⟨(fieldD1_encodeXYN _ _ _ _).symm, (fieldKK_encodeXYN _ _ _).symm⟩

/-- A word that the row of some instruction admits decodes to an instruction of that row. -/
theorem decodeWord_of_row_admits {j : Instr} {iw : Word} (h : j.row.admits iw = true) :
    ∃ i, decodeWord iw = .ok i ∧ i.row = j.row := by
  cases j with
  | cls | ret =>
    obtain rfl := eq_of_admits_FFFF h
    exact ⟨_, rfl, rfl⟩
  | jp _ | call _ | ldI _ | jpV0 _ | seImm _ _ | sneImm _ _ | ldImm _ _ | addImm _ _ | rnd _ _ | drw _ _ _ =>
    have hd1 := fieldD1_of_admits_F000 h
    simp [decodeWord, hd1, Instr.row]
  | seReg _ _ | sneReg _ _ =>
    obtain ⟨hd1, hn⟩ := fields_of_admits_F00F h
    simp [decodeWord, hd1, hn, Instr.row]
  | ldReg _ _ | orReg _ _ | andReg _ _ | xorReg _ _ | addReg _ _ | subReg _ _ | shr _ _ | subnReg _ _ | shl _ _ =>
    obtain ⟨hd1, hn⟩ := fields_of_admits_F00F h
    simp [decodeWord, decodeFamily8, hd1, hn, Instr.row]
  | skp _ | sknp _ =>
    obtain ⟨hd1, hkk⟩ := fields_of_admits_F0FF h
    simp [decodeWord, decodeFamilyE, hd1, hkk, Instr.row]
  | ldVxDT _ | ldVxK _ | ldDTVx _ | ldSTVx _ | addI _ | ldF _ | ldB _ | storeRegs _ | loadRegs _ =>
    obtain ⟨hd1, hkk⟩ := fields_of_admits_F0FF h
    simp [decodeWord, decodeFamilyF, hd1, hkk, Instr.row]

/-- The table lists the row of every instruction, and no other. -/
theorem mem_opcodeRows_iff (r : OpcodeRow) : r ∈ opcodeRows ↔ ∃ i : Instr, i.row = r := by
  constructor
  · simp only [opcodeRows, ← List.map_append, List.mem_map]
    rintro ⟨i, -, hi⟩
    exact ⟨i, hi⟩
  · rintro ⟨i, rfl⟩
    cases i <;> simp [opcodeRows, Instr.row]

/-- Settles O3: a row that admits a word is the row of the instruction the word decodes to, so there is at most one; and
an instruction the decoder answers with has a row that admits the word. -/
theorem decoderFollowsTheOpcodeMap : Obligations.DecoderFollowsTheOpcodeMap := by
  unfold Obligations.DecoderFollowsTheOpcodeMap
  have hdecodes {iw : Word} : ∀ r ∈ opcodeRows, r.admits iw = true → ∃ i, decodeWord iw = .ok i ∧ i.row = r := by
    intro r hr hadmits
    obtain ⟨j, rfl⟩ := (mem_opcodeRows_iff r).1 hr
    exact decodeWord_of_row_admits hadmits
  refine ⟨rfl, fun iw => ⟨fun r hr q hq hra hqa => ?_, hdecodes, fun hnone => ?_⟩⟩
  · obtain ⟨i, hi, rfl⟩ := hdecodes r hr hra
    obtain ⟨j, hj, rfl⟩ := hdecodes q hq hqa
    obtain rfl : i = j := Except.ok.inj (hi.symm.trans hj)
    rfl
  · have hanswer := decodeWord_answersFor iw
    cases hd : decodeWord iw with
    | error e => rw [hd] at hanswer; exact congrArg _ hanswer
    | ok i =>
      have hadmits := row_admits_encode i
      rw [decodedWordIsReencodedExactly iw i hd, hnone _ ((mem_opcodeRows_iff _).2 ⟨i, rfl⟩)] at hadmits
      cases hadmits

/-- Settles O4: by evaluating the decoder on the thirteen words. -/
theorem specExampleWordsDecode : Obligations.SpecExampleWordsDecode := by
  unfold Obligations.SpecExampleWordsDecode
  decide

end Sys2Proof
end

section
/-! PROOF. No STEP is refused (O10): an arm of `exec` completes, or raises a fault (40_fetch_decode_dispatch.md R116). -/

namespace Sys2Proof.Machine

theorem raise_ne_refused (cause : Word → Word → Fault) (i : Instr) (s : State) (r : Refusal) :
    raise cause i s ≠ .refused r := by
  simp [raise]

/-- An arm behind a check is not refused. -/
theorem ite_raise_ne_refused (c : Bool) (cause : Word → Word → Fault) (i : Instr) (s u : State) (r : Refusal) :
    (if c = true then .next u else raise cause i s) ≠ .refused r := by
  cases c with
  | false => exact raise_ne_refused cause i s r
  | true => nofun

/-- Every instruction of the table has its meaning. -/
theorem exec_ne_refused (i : Instr) (s : State) (r : Refusal) : exec i s ≠ .refused r := by
  cases i with
  | ret =>
    simp only [exec, execRet]
    cases s.pop <;> simp [raise_ne_refused]
  | call nnn =>
    simp only [exec, execCall]
    cases s.push s.pc <;> simp [raise_ne_refused]
  | skp x | sknp x =>
    simp only [exec, execSkp, execSknp]
    cases keyOf (s.reg x) <;> simp [raise_ne_refused]
  | ldVxK x =>
    simp only [exec, execLdVxK]
    cases s.scanKeys <;> simp
  | drw x y n => exact ite_raise_ne_refused _ _ _ s _ r
  | ldB x | storeRegs x | loadRegs x => exact ite_raise_ne_refused _ _ _ s _ r
  | _ => nofun

/-- Settles O10: a STEP ends in the fault of a faulted core, of the fetch or of dispatch, or as its instruction does. -/
theorem stepIsNeverRefused : Obligations.StepIsNeverRefused := by
  unfold Obligations.StepIsNeverRefused
  intro s r
  cases hf : s.fault with
  | some f => rw [step_of_faulted hf]; nofun
  | none =>
    cases hi : s.nextInstr with
    | error f => rw [step_of_no_instr hf hi]; nofun
    | ok i => rw [step_of_instr hf hi]; exact exec_ne_refused i s.advance r

end Sys2Proof.Machine
end

section
/-! PROOF. The STEP sequence (40_fetch_decode_dispatch.md R110 to R115): what the fetch reads and when it faults (O6), the
dispatch of a word that decodes (O5) and of one that matches no pattern (O7). -/

namespace Sys2Proof

/-- A word that no row of the opcode map admits is rejected by name (R88). -/
theorem decodeWord_of_not_wordWellFormed {iw : Word} (h : wordWellFormed iw = false) :
    decodeWord iw = .error (.invalidWord iw) := by
  obtain ⟨-, hmap⟩ := decoderFollowsTheOpcodeMap
  obtain ⟨-, -, hreject⟩ := hmap iw
  exact hreject fun r hr => Bool.eq_false_of_not_eq_true (List.any_eq_false.1 h r hr)

end Sys2Proof

namespace Sys2Proof.Machine

/-- There is no next instruction exactly when the fetch is out of range (R111) or the fetched word is rejected (R115). -/
theorem State.nextInstr_error_iff (s : State) (f : Fault) :
    s.nextInstr = .error f ↔
      (s.fetchWord = none ∧ f = .outOfRange s.pc 0) ∨
      (∃ iw r, s.fetchWord = some iw ∧ decodeWord iw = .error r ∧ f = .invalidOpcode s.pc iw) := by
  unfold State.nextInstr
  cases s.fetchWord with
  | none => simp [eq_comm]
  | some iw => cases h : decodeWord iw <;> simp [h, eq_comm]

/-- Settles O7: the decoder rejects the word, and dispatch turns the rejection into the fault. -/
theorem unmatchedWordRaisesInvalidOpcode : Obligations.UnmatchedWordRaisesInvalidOpcode := by
  unfold Obligations.UnmatchedWordRaisesInvalidOpcode
  intro s iw hfault hfetch hword
  have hreject := decodeWord_of_not_wordWellFormed hword
  exact step_of_no_instr hfault ((s.nextInstr_error_iff _).2 (.inr ⟨iw, _, hfetch, hreject, rfl⟩))

/-- Settles O5: the two bytes are the fetched word, so their instruction is the next one. -/
theorem stepRunsTheDecodedInstruction : Obligations.StepRunsTheDecodedInstruction := by
  unfold Obligations.StepRunsTheDecodedInstruction
  intro s i hfault hpc hdecode
  exact step_of_instr hfault ((s.nextInstr_ok_iff i).2 ⟨_, State.fetchWord_of_lt hpc, hdecode⟩)

/-- Settles O6: below 0xFFF the fetch reads the word and `pc + 2` does not wrap; from 0xFFF on there is no word. -/
theorem fetchReadsBigEndianOrFaults : Obligations.FetchReadsBigEndianOrFaults := by
  unfold Obligations.FetchReadsBigEndianOrFaults
  refine fun s => ⟨fun hpc => ?_, fun hpc => ⟨State.fetchWord_of_lt hpc, ?_, Frame.setPc s _ rfl⟩⟩
  · have hnone : s.fetchWord = none := s.fetchWord_eq_none_iff.2 (by omega)
    exact ⟨hnone, fun hfault => step_of_no_instr hfault ((s.nextInstr_error_iff _).2 (.inl ⟨hnone, rfl⟩))⟩
  · rw [State.advance_pc]
    bv_omega

end Sys2Proof.Machine
end

section
/-! PROOF. Control transfer (41_control_flow.md): jumps (O20, O26), call and return (O21, O22, O23), the depth of the call
stack over a sequence of calls (O24), register skips (O25), and the instructions that wait in place (O19). -/

namespace Sys2Proof.Machine

/-! ### Waiting in place -/

/-- Giving `pc` a value takes back what the fetch did to it (R112). -/
@[simp] theorem State.advance_setPc (s : State) (a : Word) : s.advance.setPc a = s.setPc a := rfl

@[simp] theorem State.setPc_self (s : State) : s.setPc s.pc = s := rfl

/-- With every latch released the scan of `Fx0A` finds no key (R202). -/
theorem State.scanKeys_eq_none {s : State} (h : ∀ k, s.key k = false) : s.scanKeys = none := by
  simp only [State.scanKeys, h, Bool.false_eq_true, if_false]
  exact List.foldl_fixed _

/-- A literal address that equals `pc` as a number is `pc`. -/
theorem addrOf_eq_of_toNat_eq {nnn : Addr12} {a : Word} (h : nnn.toNat = a.toNat) : addrOf nnn = a :=
  BitVec.eq_of_toNat_eq ((addrOf_toNat nnn).trans h)

/-- Settles O19: both instructions give `pc` the address they were fetched from, and write nothing else. -/
theorem selfJumpAndKeyWaitChangeNothing : Obligations.SelfJumpAndKeyWaitChangeNothing := by
  unfold Obligations.SelfJumpAndKeyWaitChangeNothing
  intro s i hfault hfetch hwaits
  have hnext : s.nextInstr = .ok i :=
    (s.nextInstr_ok_iff i).2 ⟨_, hfetch, encodedInstructionDecodesToItself i⟩
  rw [step_of_instr hfault hnext]
  rcases hwaits with ⟨nnn, rfl, hself⟩ | ⟨x, rfl, hreleased⟩
  · have htarget : addrOf nnn = s.pc := addrOf_eq_of_toNat_eq hself
    simp [exec, execJp, htarget]
  · have hscan : s.advance.scanKeys = none := State.scanKeys_eq_none hreleased
    have hback : s.advance.setPc (s.advance.pc - 2) = s := by simp
    exact (exec_ldVxK_eq_next_iff x _ s).2 (.inr ⟨hscan, hback.symm⟩)

/-! ### Call and return -/

/-- With 16 addresses pending, `2nnn` overflows the call stack (R134), and the record names the call (R242). -/
theorem exec_call_of_full (nnn : Addr12) {s : State} (h : s.sp ≥ 16) :
    exec (.call nnn) s = .fault (.stackOverflow (s.pc - 2) (encode (.call nnn))) := by
  have hpush : s.push s.pc = none := (s.push_eq_none_iff s.pc).2 h
  simp only [exec, execCall, hpush, raise]

/-- With no address pending, `00EE` underflows the call stack (R132), and the record names the return (R242). -/
theorem exec_ret_of_empty {s : State} (h : s.stack = []) :
    exec .ret s = .fault (.stackUnderflow (s.pc - 2) (encode .ret)) := by
  have hpop : s.pop = none := s.pop_eq_none_iff.2 h
  simp only [exec, execRet, hpop, raise]

/-- With a free place on the stack, `2nnn` pushes `pc` and jumps (R134). -/
theorem exec_call_of_lt (nnn : Addr12) {s : State} (h : s.sp < 16) :
    ∃ t, exec (.call nnn) s = .next t ∧ t.stack = s.stack ++ [s.pc] ∧ t.pc = addrOf nnn :=
  ⟨_, (exec_call_eq_next_iff nnn s _).2 ⟨h, rfl⟩, rfl, rfl⟩

/-- With an address pending, `00EE` takes the last one pushed off the stack into `pc` (R132). -/
theorem exec_ret_of_pending {s : State} {older : List Word} {a : Word} (h : s.stack = older ++ [a]) :
    ∃ t, exec .ret s = .next t ∧ t.pc = a ∧ t.stack = older :=
  ⟨_, (exec_ret_eq_next_iff s _).2 ⟨older, a, h, rfl⟩, rfl, rfl⟩

/-- Pushing an address adds one to `sp` (R29, R130). -/
theorem State.sp_of_stack_append {s t : State} {a : Word} (h : t.stack = s.stack ++ [a]) : t.sp = s.sp + 1 := by
  simp [State.sp, h]

/-- Settles O21: by the two outcomes of a call, and its frame. -/
theorem callPushesReturnAddress : Obligations.CallPushesReturnAddress := by
  unfold Obligations.CallPushesReturnAddress
  refine fun nnn s => ⟨encodedInstructionDecodesToItself (.call nnn), fun hfree => ?_,
    fun hfull => ⟨_, _, exec_call_of_full nnn hfull⟩⟩
  obtain ⟨t, hexec, hstack, hpc⟩ := exec_call_of_lt nnn hfree
  exact ⟨t, hexec, hstack, State.sp_of_stack_append hstack, by rw [hpc, addrOf_toNat], exec_frame hexec⟩

/-- Settles O22: by the two outcomes of a return, and its frame. -/
theorem returnPopsIntoPc : Obligations.ReturnPopsIntoPc := by
  unfold Obligations.ReturnPopsIntoPc
  refine ⟨encodedInstructionDecodesToItself .ret, fun s => ⟨fun older a hpending => ?_,
    fun hempty => ⟨_, _, exec_ret_of_empty hempty⟩⟩⟩
  obtain ⟨t, hexec, hpc, hstack⟩ := exec_ret_of_pending hpending
  exact ⟨t, hexec, hpc, hstack, (State.sp_of_stack_append (hstack ▸ hpending)).symm, exec_frame hexec⟩

/-- Settles O23: the return takes off the stack what the call put on it, the address after the call. -/
theorem callThenReturnRestoresPc : Obligations.CallThenReturnRestoresPc := by
  unfold Obligations.CallThenReturnRestoresPc
  intro nnn s hfree
  obtain ⟨t, hcall, hstack, -⟩ := exec_call_of_lt nnn hfree
  exact ⟨t, hcall, fun u hu => exec_ret_of_pending (hu.trans hstack)⟩

/-! ### A sequence of calls -/

theorem execAll_cons_of_next {i : Instr} {s t : State} (is : List Instr) (h : exec i s = .next t) :
    execAll (i :: is) s = execAll is t := by
  simp only [execAll, h]

/-- As many calls as the stack has free places succeed, whatever their targets, and each leaves one address pending. -/
theorem execAll_calls (targets : List Addr12) (s : State) (h : s.sp + targets.length ≤ 16) :
    ∃ t, execAll (targets.map Instr.call) s = .next t ∧ t.sp = s.sp + targets.length := by
  induction targets generalizing s with
  | nil => exact ⟨s, rfl, rfl⟩
  | cons nnn targets ih =>
    rw [List.length_cons] at h ⊢
    obtain ⟨t, hexec, hstack, -⟩ := exec_call_of_lt nnn (s := s) (by omega)
    have hsp : t.sp = s.sp + 1 := State.sp_of_stack_append hstack
    obtain ⟨u, hall, hu⟩ := ih t (by omega)
    exact ⟨u, by rw [List.map_cons, execAll_cons_of_next _ hexec, hall], by omega⟩

/-- Settles O24: the 16 calls fill the empty stack, and a call on a full stack overflows. -/
theorem sixteenCallsSucceedAndTheNextOverflows : Obligations.SixteenCallsSucceedAndTheNextOverflows := by
  unfold Obligations.SixteenCallsSucceedAndTheNextOverflows
  intro targets s hempty hlen
  obtain ⟨t, hall, hsp⟩ := execAll_calls targets s (by omega)
  have hfull : t.sp = 16 := by omega
  exact ⟨t, hall, hfull, fun nnn => ⟨_, _, exec_call_of_full nnn hfull.ge⟩⟩

/-! ### Jumps and skips -/

/-- Settles O20: the jump is one write of `pc`. -/
theorem jumpLoadsPc : Obligations.JumpLoadsPc := by
  unfold Obligations.JumpLoadsPc
  exact fun nnn s => ⟨encodedInstructionDecodesToItself (.jp nnn), s.setPc (addrOf nnn), rfl, addrOf_toNat nnn,
    Frame.setPc s _ rfl⟩

/-- Settles O26: the jump is one write of `pc`, and the sum does not wrap. -/
theorem indexedJumpAddsV0 : Obligations.IndexedJumpAddsV0 := by
  unfold Obligations.IndexedJumpAddsV0
  exact fun nnn s => ⟨encodedInstructionDecodesToItself (.jpV0 nnn), s.setPc (offsetTarget nnn (s.reg 0)), rfl,
    offsetTarget_toNat nnn (s.reg 0), Frame.setPc s _ rfl⟩

/-- An instruction whose effect is a skip on a condition adds 2 to `pc` when it holds, and changes nothing else. -/
theorem exec_of_skipIf {i : Instr} {s : State} {c : Bool} {p : Prop} [Decidable p]
    (hexec : exec i s = .next (s.skipIf c)) (hc : c = true ↔ p) :
    ∃ t, exec i s = .next t ∧ t.pc = (if p then s.pc + 2 else s.pc) ∧ Frame { pc := true } s t :=
  ⟨s.skipIf c, hexec, by simp only [State.skipIf_pc, hc], Frame.skipIf s c rfl⟩

/-- Settles O25: each of the four is a skip on its condition. -/
theorem registerSkipsAddTwoWhenConditionHolds : Obligations.RegisterSkipsAddTwoWhenConditionHolds := by
  unfold Obligations.RegisterSkipsAddTwoWhenConditionHolds
  intro x y kk s
  exact ⟨encodedInstructionDecodesToItself (.seImm x kk), encodedInstructionDecodesToItself (.sneImm x kk),
    encodedInstructionDecodesToItself (.seReg x y), encodedInstructionDecodesToItself (.sneReg x y),
    exec_of_skipIf rfl beq_iff_eq, exec_of_skipIf rfl bne_iff_ne, exec_of_skipIf rfl beq_iff_eq,
    exec_of_skipIf rfl bne_iff_ne⟩

end Sys2Proof.Machine
end

section
/-! PROOF. Register load, ALU and random (42_load_alu.md): the instructions that write `Vx` alone (O27, O28), the
flag-setting ones with a destination other than `VF` (O29, O30) and with `VF` itself (O31), and random (O32). -/

namespace Sys2Proof.Machine

/-! ### Results and flags as numbers -/

/-- A difference of bytes wraps at 256 (R150). -/
theorem byte_sub_toNat (p q : Byte) : (p - q).toNat = (p.toNat + 256 - q.toNat) % 256 := by bv_omega

theorem byte_shiftRight_one_toNat (p : Byte) : (p >>> 1).toNat = p.toNat / 2 := by
  rw [BitVec.toNat_ushiftRight, Nat.shiftRight_eq_div_pow]

theorem byte_shiftLeft_one_toNat (p : Byte) : (p <<< 1).toNat = 2 * p.toNat % 256 := by
  rw [BitVec.toNat_shiftLeft, Nat.shiftLeft_eq, Nat.mul_comm]

theorem flagByte_decide (c : Prop) [Decidable c] : flagByte (decide c) = if c then 1 else 0 := by
  simp only [flagByte, decide_eq_true_eq]

theorem carryFlag_eq (p q : Byte) : carryFlag p q = if p.toNat + q.toNat ≥ 256 then 1 else 0 := flagByte_decide _

theorem noBorrowFlag_eq (p q : Byte) : noBorrowFlag p q = if p.toNat ≥ q.toNat then 1 else 0 := flagByte_decide _

theorem greaterFlag_eq (p q : Byte) : greaterFlag p q = if p.toNat > q.toNat then 1 else 0 := flagByte_decide _

/-- The bit a right shift loses is the remainder of the division by 2 (R160). -/
theorem lowBitFlag_toNat (p : Byte) : (lowBitFlag p).toNat = p.toNat % 2 := by
  rw [lowBitFlag, flagByte_toNat, BitVec.getLsbD, Nat.toNat_testBit, Nat.pow_zero, Nat.div_one]

/-- The bit a left shift loses is what 128 goes into the byte (R162). -/
theorem highBitFlag_toNat (p : Byte) : (highBitFlag p).toNat = p.toNat / 128 := by
  have := p.isLt
  rw [highBitFlag, flagByte_toNat, BitVec.getLsbD, Nat.toNat_testBit]
  omega

/-! ### What the two writes of a flag-setting instruction leave (R151) -/

@[simp] theorem State.resultThenFlag_reg_VF (s : State) (x : Reg) (v f : Byte) : (s.resultThenFlag x v f).reg VF = f := by
  rw [State.reg_resultThenFlag, if_pos rfl]

theorem State.resultThenFlag_reg_of_ne (s : State) {x : Reg} (v f : Byte) (h : x ≠ VF) :
    (s.resultThenFlag x v f).reg x = v := by
  rw [State.reg_resultThenFlag, if_neg h, if_pos rfl]

@[simp] theorem State.flagThenResult_reg_self (s : State) (x : Reg) (v f : Byte) : (s.flagThenResult x v f).reg x = v := by
  rw [State.reg_flagThenResult, if_pos rfl]

theorem State.flagThenResult_reg_VF_of_ne (s : State) {x : Reg} (v f : Byte) (h : x ≠ VF) :
    (s.flagThenResult x v f).reg VF = f := by
  rw [State.reg_flagThenResult, if_neg h.symm, if_pos rfl]

/-! ### Instructions that write `Vx` alone -/

/-- Settles O27: each of the three is one write of `Vx`. -/
theorem loadAddImmediateAndCopyWriteOnlyVx : Obligations.LoadAddImmediateAndCopyWriteOnlyVx := by
  unfold Obligations.LoadAddImmediateAndCopyWriteOnlyVx
  intro x y kk s
  refine ⟨encodedInstructionDecodesToItself (.ldImm x kk), encodedInstructionDecodesToItself (.addImm x kk),
    encodedInstructionDecodesToItself (.ldReg x y),
    ⟨_, rfl, s.reg_setReg_self x kk, exec_frame (i := .ldImm x kk) rfl⟩,
    ⟨_, rfl, ?_, exec_frame (i := .addImm x kk) rfl⟩,
    ⟨_, rfl, s.reg_setReg_self x _, exec_frame (i := .ldReg x y) rfl⟩⟩
  rw [State.reg_setReg_self, BitVec.toNat_add]

/-- An instruction that writes one value to `Vx` leaves there the bits of that value, and changes nothing else. -/
theorem exec_of_setReg_bits {i : Instr} {s : State} {x : Reg} {v : Byte} {bit : Nat → Bool}
    (hexec : exec i s = .next (s.setReg x v)) (hbits : ∀ k, v.getLsbD k = bit k) :
    ∃ t, exec i s = .next t ∧ Frame { regs := [x] } s t ∧ ∀ k, (t.reg x).getLsbD k = bit k :=
  ⟨s.setReg x v, hexec, Frame.setReg s v List.mem_cons_self, fun k => by rw [State.reg_setReg_self, hbits]⟩

/-- Settles O28: each of the three is one write of `Vx`, with a value known bit by bit. -/
theorem bitwiseOperationsWriteOnlyVx : Obligations.BitwiseOperationsWriteOnlyVx := by
  unfold Obligations.BitwiseOperationsWriteOnlyVx
  intro x y s
  exact ⟨encodedInstructionDecodesToItself (.orReg x y), encodedInstructionDecodesToItself (.andReg x y),
    encodedInstructionDecodesToItself (.xorReg x y), exec_of_setReg_bits rfl fun _ => BitVec.getLsbD_or,
    exec_of_setReg_bits rfl fun _ => BitVec.getLsbD_and, exec_of_setReg_bits rfl fun _ => BitVec.getLsbD_xor⟩

/-- Settles O32: the draw takes one free value, and its byte masked by `kk` is what `Vx` is given. -/
theorem randomIsMaskedByImmediate : Obligations.RandomIsMaskedByImmediate := by
  unfold Obligations.RandomIsMaskedByImmediate
  intro x kk s
  refine ⟨encodedInstructionDecodesToItself (.rnd x kk), _, rfl, rfl, exec_frame (i := .rnd x kk) rfl, fun k => ?_⟩
  rw [State.reg_setReg_self, BitVec.getLsbD_and, State.draw8]

/-! ### Instructions that set the flag -/

/-- Settles O29: result and flag are in different registers, and both are computed from the state before the writes. -/
theorem addAndSubtractSetResultAndFlag : Obligations.AddAndSubtractSetResultAndFlag := by
  unfold Obligations.AddAndSubtractSetResultAndFlag
  refine fun x y s => ⟨encodedInstructionDecodesToItself (.addReg x y), encodedInstructionDecodesToItself (.subReg x y),
    encodedInstructionDecodesToItself (.subnReg x y), fun hx => ⟨⟨_, rfl, ?_, ?_, exec_frame (i := .addReg x y) rfl⟩,
      ⟨_, rfl, ?_, ?_, exec_frame (i := .subReg x y) rfl⟩, ⟨_, rfl, ?_, ?_, exec_frame (i := .subnReg x y) rfl⟩⟩⟩
  · rw [State.resultThenFlag_reg_of_ne s _ _ hx, BitVec.toNat_add]
  · rw [State.resultThenFlag_reg_VF, carryFlag_eq]
  · rw [State.resultThenFlag_reg_of_ne s _ _ hx, byte_sub_toNat]
  · rw [State.resultThenFlag_reg_VF, noBorrowFlag_eq]
  · rw [State.flagThenResult_reg_self, byte_sub_toNat]
  · rw [State.flagThenResult_reg_VF_of_ne s _ _ hx, greaterFlag_eq]

/-- Settles O30: result and flag are in different registers, and both are computed from the old `Vx`. -/
theorem shiftsByOneSetTheBitShiftedOut : Obligations.ShiftsByOneSetTheBitShiftedOut := by
  unfold Obligations.ShiftsByOneSetTheBitShiftedOut
  refine fun x y s => ⟨encodedInstructionDecodesToItself (.shr x y), encodedInstructionDecodesToItself (.shl x y),
    fun hx => ⟨⟨_, rfl, ?_, ?_, exec_frame (i := .shr x y) rfl⟩, ⟨_, rfl, ?_, ?_, exec_frame (i := .shl x y) rfl⟩⟩⟩
  · rw [State.flagThenResult_reg_self, byte_shiftRight_one_toNat]
  · rw [State.flagThenResult_reg_VF_of_ne s _ _ hx, lowBitFlag_toNat]
  · rw [State.flagThenResult_reg_self, byte_shiftLeft_one_toNat]
  · rw [State.flagThenResult_reg_VF_of_ne s _ _ hx, highBitFlag_toNat]

/-- With `VF` as destination, `8Fy4` and `8Fy5` change `VF` alone, and the flag, written last, remains. -/
theorem exec_of_resultThenFlag_VF {i : Instr} {s : State} {v f : Byte}
    (hexec : exec i s = .next (s.resultThenFlag VF v f)) :
    ∃ t, exec i s = .next t ∧ Frame { regs := [VF] } s t ∧ t.reg VF = f :=
  ⟨_, hexec, Frame.resultThenFlag s v f List.mem_cons_self List.mem_cons_self, s.resultThenFlag_reg_VF VF v f⟩

/-- With `VF` as destination, `8Fy6`, `8Fy7` and `8FyE` change `VF` alone, and the result, written last, remains. -/
theorem exec_of_flagThenResult_VF {i : Instr} {s : State} {v f : Byte} {n : Nat}
    (hexec : exec i s = .next (s.flagThenResult VF v f)) (hv : v.toNat = n) :
    ∃ t, exec i s = .next t ∧ Frame { regs := [VF] } s t ∧ (t.reg VF).toNat = n :=
  ⟨_, hexec, Frame.flagThenResult s v f List.mem_cons_self List.mem_cons_self, by rw [State.flagThenResult_reg_self, hv]⟩

/-- Settles O31: by the order of the two writes. -/
theorem laterWriteWinsWhenDestinationIsVF : Obligations.LaterWriteWinsWhenDestinationIsVF := by
  unfold Obligations.LaterWriteWinsWhenDestinationIsVF
  intro y s
  rw [← carryFlag_eq, ← noBorrowFlag_eq]
  exact ⟨exec_of_resultThenFlag_VF rfl, exec_of_resultThenFlag_VF rfl,
    exec_of_flagThenResult_VF rfl (byte_shiftRight_one_toNat _), exec_of_flagThenResult_VF rfl (byte_sub_toNat _ _),
    exec_of_flagThenResult_VF rfl (byte_shiftLeft_one_toNat _)⟩

end Sys2Proof.Machine
end

section
/-! PROOF. Index register and memory (43_index_memory.md): the instructions that write `I` alone (O33, O34), and those that
move bytes between the registers and the memory at `I` (O35 to O38). -/

namespace Sys2Proof.Machine

/-! ### The new value of `I` -/

/-- Five times a byte fits in 16 bits: the glyph address never wraps (R172). -/
theorem glyphAddr_toNat (v : Byte) : (glyphAddr v).toNat = 5 * v.toNat := by
  have := v.isLt
  have hfive : (5 : Word).toNat = 5 := rfl
  rw [glyphAddr, BitVec.toNat_mul, BitVec.toNat_setWidth, hfive]
  omega

/-- `I + Vx` is reduced modulo 65536 (R171). -/
theorem indexSum_toNat (i : Word) (v : Byte) : (indexSum i v).toNat = (i.toNat + v.toNat) % 65536 := by
  have := v.isLt
  rw [indexSum, BitVec.toNat_add, BitVec.toNat_setWidth]
  omega

/-- Settles O33: each of the two is one write of `I`, with a value that fits. -/
theorem loadIndexAndGlyphAddress : Obligations.LoadIndexAndGlyphAddress := by
  unfold Obligations.LoadIndexAndGlyphAddress
  exact fun nnn x s => ⟨encodedInstructionDecodesToItself (.ldI nnn), encodedInstructionDecodesToItself (.ldF x),
    ⟨s.setI (addrOf nnn), rfl, addrOf_toNat nnn, Frame.setI s _ rfl⟩,
    ⟨s.setI (glyphAddr (s.reg x)), rfl, glyphAddr_toNat (s.reg x), Frame.setI s _ rfl⟩⟩

/-- Settles O34: the addition is one write of `I`, so no flag is written. -/
theorem addToIndexWrapsAtSixteenBits : Obligations.AddToIndexWrapsAtSixteenBits := by
  unfold Obligations.AddToIndexWrapsAtSixteenBits
  exact fun x s => ⟨encodedInstructionDecodesToItself (.addI x), s.setI (indexSum s.I (s.reg x)), rfl,
    indexSum_toNat s.I (s.reg x), Frame.setI s _ rfl⟩

/-! ### Bytes moved at `I`: completion -/

/-- Each digit `Fx33` computes, as a number: the `k`-th, counted from the hundreds, has weight `10 ^ (2 - k)` (R173). -/
theorem decimalDigits_getElem_toNat (b : Byte) (k : Nat) (hk : k < (decimalDigits b).length) :
    (decimalDigits b)[k].toNat = b.toNat / 10 ^ (2 - k) % 10 := by
  rw [decimalDigits_getElem, BitVec.toNat_ofNat]
  exact Nat.mod_eq_of_lt (by omega)

/-- With its three bytes inside memory, `Fx33` leaves the `k`-th digit at `I + k` (R173). -/
theorem exec_ldB_of_le (x : Reg) {s : State} (h : s.I.toNat + 2 ≤ 4095) :
    ∃ t, exec (.ldB x) s = .next t ∧
      ∀ k < 3, (t.byteAt (s.I.toNat + k)).toNat = (s.reg x).toNat / 10 ^ (2 - k) % 10 := by
  refine ⟨_, (exec_ldB_eq_next_iff x s _).2 ⟨s.inMemory_of_le (by omega), rfl⟩, fun k hk => ?_⟩
  exact (congrArg BitVec.toNat (s.byteAt_storeBytes _ (decimalDigits (s.reg x)) k hk)).trans (decimalDigits_getElem_toNat _ k hk)

/-- With its `x + 1` bytes inside memory, `Fx55` leaves `Vr` at `I + r` for each `r` up to `x` (R174). -/
theorem exec_storeRegs_of_le {x : Reg} {s : State} (h : s.I.toNat + x.val ≤ 4095) :
    ∃ t, exec (.storeRegs x) s = .next t ∧ ∀ r : Reg, r ≤ x → t.byteAt (s.I.toNat + r.val) = s.reg r := by
  refine ⟨_, (exec_storeRegs_eq_next_iff x s _).2 ⟨s.inMemory_of_le (by omega), rfl⟩, fun r hr => ?_⟩
  have hk : r.val < (s.regsUpTo x).length := s.regsUpTo_length x ▸ Nat.lt_succ_of_le hr
  exact (s.byteAt_storeBytes _ _ r.val hk).trans (s.regsUpTo_getElem x r.val hk)

/-- With its `x + 1` bytes inside memory, `Fx65` leaves the byte at `I + r` in `Vr` for each `r` up to `x` (R175). -/
theorem exec_loadRegs_of_le {x : Reg} {s : State} (h : s.I.toNat + x.val ≤ 4095) :
    ∃ t, exec (.loadRegs x) s = .next t ∧ ∀ r : Reg, r ≤ x → t.reg r = s.byteAt (s.I.toNat + r.val) := by
  refine ⟨_, (exec_loadRegs_eq_next_iff x s _).2 ⟨s.inMemory_of_le (by omega), rfl⟩, fun r hr => ?_⟩
  rw [State.reg_setRegsUpTo, if_pos hr, State.dataAddr]

/-! ### Bytes moved at `I`: the fault -/

/-- An arm behind the bounds rule faults when its bytes from `I` on end beyond 4095 (R52, R176), and the record names the
instruction (R242). -/
theorem ite_inMemory_raise_of_beyond {s : State} {len : Nat} (hlen : len ≠ 0) (h : s.I.toNat + len > 4096)
    (cause : Word → Word → Fault) (i : Instr) (t : State) :
    (if inMemory (s.dataAddr 0) len = true then .next t else raise cause i s) =
      .fault (cause (s.pc - 2) (encode i)) := by
  have hout : ¬ inMemory (s.dataAddr 0) len = true := by
    rw [inMemory_iff, State.dataAddr]
    omega
  rw [if_neg hout, raise]

theorem exec_ldB_of_beyond (x : Reg) {s : State} (h : s.I.toNat + 2 > 4095) :
    exec (.ldB x) s = .fault (.outOfRange (s.pc - 2) (encode (.ldB x))) :=
  ite_inMemory_raise_of_beyond (by decide) (by omega) _ _ _

theorem exec_storeRegs_of_beyond {x : Reg} {s : State} (h : s.I.toNat + x.val > 4095) :
    exec (.storeRegs x) s = .fault (.outOfRange (s.pc - 2) (encode (.storeRegs x))) :=
  ite_inMemory_raise_of_beyond (Nat.succ_ne_zero _) (by omega) _ _ _

theorem exec_loadRegs_of_beyond {x : Reg} {s : State} (h : s.I.toNat + x.val > 4095) :
    exec (.loadRegs x) s = .fault (.outOfRange (s.pc - 2) (encode (.loadRegs x))) :=
  ite_inMemory_raise_of_beyond (Nat.succ_ne_zero _) (by omega) _ _ _

/-! ### The statements -/

/-- Settles O35: by the two outcomes of `Fx33`, and its frame; the hundreds of a byte are a single digit. -/
theorem decimalDigitsAreStoredAtI : Obligations.DecimalDigitsAreStoredAtI := by
  unfold Obligations.DecimalDigitsAreStoredAtI
  refine fun x s => ⟨encodedInstructionDecodesToItself (.ldB x), fun hin => ?_,
    fun hout => ⟨_, _, exec_ldB_of_beyond x hout⟩⟩
  obtain ⟨t, hexec, hdigit⟩ := exec_ldB_of_le x hin
  have hhundreds : (t.byteAt s.I.toNat).toNat = (s.reg x).toNat / 100 :=
    (hdigit 0 (by decide)).trans (Nat.mod_eq_of_lt (by have := (s.reg x).isLt; omega))
  have hones : (t.byteAt (s.I.toNat + 2)).toNat = (s.reg x).toNat % 10 := by simpa using hdigit 2 (by decide)
  exact ⟨t, hexec, hhundreds, hdigit 1 (by decide), hones, exec_frame hexec⟩

/-- Settles O36: by the two outcomes of `Fx55`, and its frame. -/
theorem registersAreStoredFromI : Obligations.RegistersAreStoredFromI := by
  unfold Obligations.RegistersAreStoredFromI
  refine fun x s => ⟨encodedInstructionDecodesToItself (.storeRegs x), fun hin => ?_,
    fun hout => ⟨_, _, exec_storeRegs_of_beyond hout⟩⟩
  obtain ⟨t, hexec, hstored⟩ := exec_storeRegs_of_le hin
  exact ⟨t, hexec, hstored, exec_frame hexec⟩

/-- Settles O37: by the two outcomes of `Fx65`, and its frame. -/
theorem registersAreLoadedFromI : Obligations.RegistersAreLoadedFromI := by
  unfold Obligations.RegistersAreLoadedFromI
  refine fun x s => ⟨encodedInstructionDecodesToItself (.loadRegs x), fun hin => ?_,
    fun hout => ⟨_, _, exec_loadRegs_of_beyond hout⟩⟩
  obtain ⟨t, hexec, hloaded⟩ := exec_loadRegs_of_le hin
  exact ⟨t, hexec, hloaded, exec_frame hexec⟩

/-- Settles O38: the load reads each byte where the store put it, and the bytes of the range are still the stored ones. -/
theorem storeThenLoadRestoresRegisters : Obligations.StoreThenLoadRestoresRegisters := by
  unfold Obligations.StoreThenLoadRestoresRegisters
  intro x s hin
  obtain ⟨t, hstore, hstored⟩ := exec_storeRegs_of_le hin
  refine ⟨t, hstore, fun u hI hkept => ?_⟩
  obtain ⟨w, hload, hloaded⟩ := exec_loadRegs_of_le (x := x) (s := u) (hI ▸ hin)
  refine ⟨w, hload, fun r hr => ?_⟩
  calc w.reg r = u.byteAt (s.I.toNat + r.val) := hI ▸ hloaded r hr
    _ = t.byteAt (s.I.toNat + r.val) := hkept r hr
    _ = s.reg r := hstored r hr

end Sys2Proof.Machine
end

section
/-! PROOF. Display (44_display.md): clearing the framebuffer (O40), and what one draw (O41) and two draws (O42) of a sprite
leave in it. -/

namespace Sys2Proof.Machine

/-- Settles O40: the new framebuffer is the blank one. -/
theorem clearLeavesEveryCellUnlit : Obligations.ClearLeavesEveryCellUnlit := by
  unfold Obligations.ClearLeavesEveryCellUnlit
  exact ⟨encodedInstructionDecodesToItself .cls, fun s =>
    ⟨s.setScreen Screen.blank, rfl, Screen.lit_blank, Frame.setScreen s _ rfl⟩⟩

/-! ### Where the bits of a sprite land -/

/-- The rows plotted from the bytes at `I` put on each cell the bit the placement of the sprite gives it (R191). -/
theorem State.rowsBit_loadBytes (s : State) (vx vy : Byte) (n : Nat) (r : Fin 32) (c : Fin 64) :
    rowsBit vx vy 0 (s.loadBytes (s.dataAddr 0) n) r c = s.spriteAt vx vy n r c := by
  have hlen : (s.loadBytes (s.dataAddr 0) n).length = n := s.loadBytes_length _ n
  rw [rowsBit, State.spriteAt, Nat.sub_zero]
  by_cases hrow : rowsBelow vy r < n
  · rw [List.getElem?_eq_getElem (hlen.symm ▸ hrow), s.loadBytes_getElem, State.dataAddr]
    simp [hrow, spriteBit]
  · rw [List.getElem?_eq_none (by omega)]
    simp [hrow]

/-- The framebuffer `Dxyn` computes is the old one exclusive-ORed with the placed sprite; the flag it computes says
whether a 1 bit fell on a lit cell (R191). -/
theorem State.plotted_spec (s : State) (x y : Reg) (n : Nibble) :
    (∀ r c, Screen.lit (s.plotted x y n).1 r c = (s.pixel r c ^^ s.spriteAt (s.reg x) (s.reg y) n.toNat r c)) ∧
    ((s.plotted x y n).2 = true ↔
      ∃ r c, s.spriteAt (s.reg x) (s.reg y) n.toNat r c = true ∧ s.pixel r c = true) := by
  have hlen := s.loadBytes_length (s.dataAddr 0) n.toNat
  obtain ⟨hlit, hcol⟩ := plotRows_spec (s.reg x) (s.reg y) 0 (s.loadBytes (s.dataAddr 0) n.toNat) (s.fb, false)
    (by have := n.isLt; omega)
  simp only [State.rowsBit_loadBytes] at hlit hcol
  exact ⟨hlit, hcol.trans (or_iff_right Bool.false_ne_true)⟩

/-! ### The outcomes of a draw -/

/-- The bounds rule for a sprite of `n` rows: none, or the last byte at most at 4095 (R52, R191). -/
theorem State.inMemory_sprite_iff (s : State) (n : Nibble) :
    inMemory (s.dataAddr 0) n.toNat = true ↔ n = 0 ∨ s.I.toNat + n.toNat - 1 ≤ 4095 := by
  rw [inMemory_iff, State.dataAddr, ← BitVec.toNat_inj, show (0 : Nibble).toNat = 0 from rfl]
  omega

theorem exec_drw_of_inMemory {x y : Reg} {n : Nibble} {s : State} (h : inMemory (s.dataAddr 0) n.toNat = true) :
    ∃ t, exec (.drw x y n) s = .next t :=
  ⟨_, (exec_drw_eq_next_iff x y n s _).2 ⟨h, rfl⟩⟩

theorem exec_drw_of_beyond (x y : Reg) {n : Nibble} {s : State} (hn : n ≠ 0) (h : s.I.toNat + n.toNat - 1 > 4095) :
    exec (.drw x y n) s = .fault (.outOfRange (s.pc - 2) (encode (.drw x y n))) :=
  ite_inMemory_raise_of_beyond (fun h0 => hn (BitVec.eq_of_toNat_eq h0)) (by omega) _ _ _

section Completed
variable {x y : Reg} {n : Nibble} {s t : State} (h : exec (.drw x y n) s = .next t)
include h

/-- A draw exclusive-ORs the placed sprite into the framebuffer (R191). -/
theorem exec_drw_pixel (r : Fin 32) (c : Fin 64) :
    t.pixel r c = (s.pixel r c ^^ s.spriteAt (s.reg x) (s.reg y) n.toNat r c) := by
  obtain ⟨-, rfl⟩ := (exec_drw_eq_next_iff x y n s t).1 h
  exact (s.plotted_spec x y n).1 r c

/-- A draw leaves 1 in `VF` when a lit cell went out, and 0 when every lit cell stayed lit (R191). -/
theorem exec_drw_VF :
    (t.reg VF = 1 ∧ ∃ r c, s.pixel r c = true ∧ t.pixel r c = false) ∨
      (t.reg VF = 0 ∧ ∀ r c, s.pixel r c = true → t.pixel r c = true) := by
  have hpixel := exec_drw_pixel h
  have hcol := (s.plotted_spec x y n).2
  have hVF : t.reg VF = flagByte (s.plotted x y n).2 := by
    obtain ⟨-, rfl⟩ := (exec_drw_eq_next_iff x y n s t).1 h
    exact State.reg_setReg_self _ _ _
  cases hflag : (s.plotted x y n).2 with
  | true =>
    obtain ⟨r, c, hbit, hlit⟩ := hcol.1 hflag
    exact .inl ⟨hVF.trans (congrArg flagByte hflag), r, c, hlit, by simp [hpixel, hlit, hbit]⟩
  | false =>
    refine .inr ⟨hVF.trans (congrArg flagByte hflag), fun r c hlit => ?_⟩
    have hbit : s.spriteAt (s.reg x) (s.reg y) n.toNat r c = false :=
      Bool.eq_false_iff.2 fun hbit => by simp [hcol.2 ⟨r, c, hbit, hlit⟩] at hflag
    simp [hpixel, hlit, hbit]

/-- A draw leaves `I` and memory alone, so the next draw finds the same sprite (R191, R192). -/
theorem exec_drw_keeps_sprite :
    inMemory (t.dataAddr 0) n.toNat = true ∧ ∀ vx vy r c, t.spriteAt vx vy n.toNat r c = s.spriteAt vx vy n.toNat r c := by
  obtain ⟨hin, rfl⟩ := (exec_drw_eq_next_iff x y n s t).1 h
  exact ⟨hin, fun _ _ _ _ => rfl⟩

end Completed

/-! ### The statements -/

/-- Settles O41: by the two outcomes of `Dxyn`, and its frame. -/
theorem drawXorsTheSpriteAndReportsCollision : Obligations.DrawXorsTheSpriteAndReportsCollision := by
  unfold Obligations.DrawXorsTheSpriteAndReportsCollision
  refine fun x y n s => ⟨encodedInstructionDecodesToItself (.drw x y n), fun hin => ?_,
    fun ⟨hn, hout⟩ => ⟨_, _, exec_drw_of_beyond x y hn hout⟩⟩
  obtain ⟨t, hexec⟩ := exec_drw_of_inMemory ((s.inMemory_sprite_iff n).2 hin)
  exact ⟨t, hexec, exec_drw_pixel hexec, exec_drw_VF hexec, exec_frame hexec⟩

/-- Settles O42: the second draw meets the same sprite at the same place, and exclusive-OR with the same bit twice is the
identity; a cell the first draw lit goes out again, which is a collision. -/
theorem drawingTwiceRestoresTheFramebuffer : Obligations.DrawingTwiceRestoresTheFramebuffer := by
  unfold Obligations.DrawingTwiceRestoresTheFramebuffer
  intro x y n s t hfirst hx hy
  obtain ⟨hin, hsprite⟩ := exec_drw_keeps_sprite hfirst
  obtain ⟨u, hsecond⟩ := exec_drw_of_inMemory (x := x) (y := y) hin
  have hrestored (r : Fin 32) (c : Fin 64) : u.pixel r c = s.pixel r c := by
    rw [exec_drw_pixel hsecond, exec_drw_pixel hfirst, hx, hy, hsprite, Bool.xor_assoc, Bool.xor_self, Bool.xor_false]
  refine ⟨u, hsecond, hrestored, fun ⟨r, c, hunlit, hlit⟩ => ?_⟩
  obtain ⟨hone, -⟩ | ⟨-, hstays⟩ := exec_drw_VF hsecond
  · exact hone
  · have : u.pixel r c = true := hstays r c hlit
    simp [hrestored, hunlit] at this

end Sys2Proof.Machine
end

section
/-! PROOF. Keys and timers (45_keys_timers.md): the key skips (O43), the wait for a key (O44), and the instructions that
move a byte between `Vx` and a timer (O45). -/

namespace Sys2Proof.Machine

/-! ### The wait for a key -/

/-- The scan of `Fx0A` keeps the last match, and it meets the keys above `k` after `k`: with all of those released, a
pressed `k` is what it finds (R202). -/
theorem State.scanKeys_eq_some {s : State} {k : Key} (hk : s.key k = true) (habove : ∀ j, k < j → s.key j = false) :
    s.scanKeys = some k := by
  obtain ⟨before, after, hsplit⟩ := List.append_of_mem (List.mem_finRange k)
  have hrising : (before ++ k :: after).Pairwise (· < ·) := hsplit ▸ List.pairwise_lt_finRange 16
  obtain ⟨-, hafter, -⟩ := List.pairwise_append.1 hrising
  have hreleased : ∀ j ∈ after, s.key j = false := fun j hj => habove j (List.rel_of_pairwise_cons hafter hj)
  rw [State.scanKeys, hsplit, List.foldl_append, List.foldl_cons, if_pos hk]
  calc after.foldl (fun found j => if s.key j then some j else found) (some k)
    _ = after.foldl (fun found _ => found) (some k) :=
      List.foldl_ext _ _ _ fun found j hj => if_neg (Bool.eq_false_iff.1 (hreleased j hj))
    _ = some k := List.foldl_fixed _

/-- A key number fits in a register. -/
theorem keyByte_toNat (k : Key) : (BitVec.ofNat 8 k.val).toNat = k.val := by
  rw [BitVec.toNat_ofNat]
  exact Nat.mod_eq_of_lt (by omega)

/-- Settles O44: a scan that finds the key makes one write of `Vx`, and a scan that finds none makes one write of `pc`. -/
theorem waitForKeyStoresTheHighestPressed : Obligations.WaitForKeyStoresTheHighestPressed := by
  unfold Obligations.WaitForKeyStoresTheHighestPressed
  refine fun x s => ⟨encodedInstructionDecodesToItself (.ldVxK x), fun k hk habove => ?_, fun hreleased => ?_⟩
  · have hexec : exec (.ldVxK x) s = .next (s.setReg x (BitVec.ofNat 8 k.val)) :=
      (exec_ldVxK_eq_next_iff x s _).2 (.inl ⟨k, State.scanKeys_eq_some hk habove, rfl⟩)
    exact ⟨_, hexec, by rw [State.reg_setReg_self, keyByte_toNat], Frame.setReg s _ List.mem_cons_self⟩
  · have hexec : exec (.ldVxK x) s = .next (s.setPc (s.pc - 2)) :=
      (exec_ldVxK_eq_next_iff x s _).2 (.inr ⟨State.scanKeys_eq_none hreleased, rfl⟩)
    exact ⟨_, hexec, rfl, Frame.setPc s _ rfl⟩

/-! ### The key skips -/

/-- With a number above 15 in `Vx`, `Ex9E` is out of range (R200), and the record names it (R242). -/
theorem exec_skp_of_beyond {x : Reg} {s : State} (h : (s.reg x).toNat ≥ 16) :
    exec (.skp x) s = .fault (.outOfRange (s.pc - 2) (encode (.skp x))) := by
  have hkey : keyOf (s.reg x) = none := (keyOf_eq_none_iff _).2 h
  simp only [exec, execSkp, hkey, raise]

/-- With a number above 15 in `Vx`, `ExA1` is out of range (R201), and the record names it (R242). -/
theorem exec_sknp_of_beyond {x : Reg} {s : State} (h : (s.reg x).toNat ≥ 16) :
    exec (.sknp x) s = .fault (.outOfRange (s.pc - 2) (encode (.sknp x))) := by
  have hkey : keyOf (s.reg x) = none := (keyOf_eq_none_iff _).2 h
  simp only [exec, execSknp, hkey, raise]

/-- Settles O43: with a key number in `Vx` each of the two is a skip on the key's level, and with any other it faults. -/
theorem keySkipsTestTheLatch : Obligations.KeySkipsTestTheLatch := by
  unfold Obligations.KeySkipsTestTheLatch
  refine fun x s => ⟨encodedInstructionDecodesToItself (.skp x), encodedInstructionDecodesToItself (.sknp x),
    fun k hk => ?_, fun hbeyond => ⟨⟨_, _, exec_skp_of_beyond hbeyond⟩, ⟨_, _, exec_sknp_of_beyond hbeyond⟩⟩⟩
  have hkey : keyOf (s.reg x) = some k := (keyOf_eq_some_iff _ k).2 hk
  exact ⟨exec_of_skipIf ((exec_skp_eq_next_iff x s _).2 ⟨k, hkey, rfl⟩) Iff.rfl,
    exec_of_skipIf ((exec_sknp_eq_next_iff x s _).2 ⟨k, hkey, rfl⟩) (iff_of_eq (Bool.not_eq_true' _))⟩

/-! ### The timers -/

/-- Settles O45: each of the three is one write, of `Vx` or of a timer. -/
theorem timerInstructionsMoveOneByte : Obligations.TimerInstructionsMoveOneByte := by
  unfold Obligations.TimerInstructionsMoveOneByte
  exact fun x s => ⟨encodedInstructionDecodesToItself (.ldVxDT x), encodedInstructionDecodesToItself (.ldDTVx x),
    encodedInstructionDecodesToItself (.ldSTVx x),
    ⟨s.setReg x s.DT, rfl, s.reg_setReg_self x _, Frame.setReg s _ List.mem_cons_self⟩,
    ⟨s.setDT (s.reg x), rfl, s.setDT_DT _, Frame.setDT s _ rfl⟩,
    ⟨s.setST (s.reg x), rfl, s.setST_ST _, Frame.setST s _ rfl⟩⟩

end Sys2Proof.Machine
end

section
/-! PROOF. The host's commands (46_host_commands.md), each said once: what RESET (O47), LOAD (O48), SETKEY (O49), STEP (O50)
and TICK (O51) return and leave. -/

namespace Sys2Proof.Machine

/-! ### One equation per command and outcome -/

/-- RESET works on a running core and on a faulted one (R222). -/
theorem command_reset (s : State) : command .reset s = (s.afterReset, .done) := by
  cases hf : s.fault with
  | none => rw [command_of_running hf]; rfl
  | some f => rw [command_of_faulted hf]; rfl

/-- A faulted core answers any command but RESET with its record and changes nothing (R230). -/
theorem command_of_faulted_of_ne_reset {s : State} {f : Fault} (hf : s.fault = some f) {c : Command} (hc : c ≠ .reset) :
    command c s = (s, .failure f) := by
  rw [command_of_faulted hf]
  cases c with
  | reset => exact absurd rfl hc
  | load image | setKey k pressed | step | tick => rfl

section Running
variable {s : State} (hf : s.fault = none)
include hf

theorem command_load_of_beyond {image : List Byte} (h : image.length > 3584) :
    command (.load image) s = (s.enterFault .loadOverflow, .failure .loadOverflow) := by
  rw [command_of_running hf, State.accept, if_pos ((imageTooLong_iff image).2 h)]

theorem command_setKey (k : Key) (pressed : Bool) : command (.setKey k pressed) s = (s.setKey k pressed, .done) :=
  command_of_running hf _

theorem command_tick : command .tick s = (s.tick, .beep s.beep) :=
  command_of_running hf _

theorem command_step_of_next {t : State} (h : step s = .next t) :
    command .step s = (t, .frame (Screen.cells t.fb)) := by
  simp only [command_of_running hf, State.accept, h]

theorem command_step_of_fault {f : Fault} (h : step s = .fault f) :
    command .step s = (s.enterFault f, .failure f) := by
  simp only [command_of_running hf, State.accept, h]

end Running

/-- A STEP completes or faults (R116). -/
theorem step_completes_or_faults (s : State) : (∃ t, step s = .next t) ∨ ∃ f, step s = .fault f := by
  cases h : step s with
  | next t => exact .inl ⟨t, rfl⟩
  | fault f => exact .inr ⟨f, rfl⟩
  | refused r => exact absurd h (stepIsNeverRefused s r)

/-! ### RESET -/

/-- Settles O47: by RESET's one equation; memory lists no cell, so it reads as the font and then as 0. -/
theorem resetCommandRestoresEverything : Obligations.ResetCommandRestoresEverything := by
  unfold Obligations.ResetCommandRestoresEverything
  refine fun s => ⟨_, command_reset s, fun r => ?_, rfl, rfl, rfl, rfl, unlistedByte_font _,
    fun a ha _ => unlistedByte_zero _ ha, rfl, fun k => ?_, Screen.lit_blank, rfl, rfl, rfl⟩
  · simp [State.reg, State.afterReset, State.resetWith]
  · simp [State.key, State.afterReset, State.resetWith]

/-! ### LOAD -/

/-- Settles O48: an image that fits is one store of bytes from 0x200 up, and a longer one faults the core. -/
theorem loadCopiesTheImageOrFaults : Obligations.LoadCopiesTheImageOrFaults := by
  unfold Obligations.LoadCopiesTheImageOrFaults
  refine fun image s hf => ⟨fun hfits => ⟨_, command_load_of_fits hf hfits, fun k b hb => ?_,
    Frame.storeBytes s _ image rfl rfl⟩, fun hlong => ⟨_, command_load_of_beyond hf hlong, rfl⟩⟩
  obtain ⟨hk, rfl⟩ := List.getElem?_eq_some_iff.1 hb
  exact s.byteAt_storeBytes 0x200 image k hk

/-! ### SETKEY -/

/-- What every latch holds after SETKEY (R226). -/
theorem State.key_setKey (s : State) (k j : Key) (pressed : Bool) :
    (s.setKey k pressed).key j = if j = k then pressed else s.key j := by
  simp only [State.key, State.setKey, Vector.getElem_set, Fin.ext_iff, eq_comm]

/-- Settles O49: by what every latch holds after SETKEY. -/
theorem setKeySetsOneLatch : Obligations.SetKeySetsOneLatch := by
  unfold Obligations.SetKeySetsOneLatch
  refine fun k pressed s hf => ⟨_, command_setKey hf k pressed, ?_, fun j hj => ?_, rfl⟩
  · rw [State.key_setKey, if_pos rfl]
  · rw [State.key_setKey, if_neg hj]

/-! ### STEP -/

/-- The cells of a framebuffer are its rows, one after the other. -/
theorem Screen.cells_eq_flatten (fb : Screen) : Screen.cells fb = fb.flatten.toList := by
  show fb.toList.flatMap Vector.toList = (fb.toArray.map Vector.toArray).flatten.toList
  rw [Array.toList_flatten, Array.toList_map, List.map_map, List.flatMap_def]
  rfl

theorem Screen.cells_length (fb : Screen) : (Screen.cells fb).length = 2048 := by
  rw [Screen.cells_eq_flatten, Vector.length_toList]

/-- Cell (`r`, `c`) stands at place `64 × r + c` (R31). -/
theorem Screen.cells_getElem? (fb : Screen) (r : Fin 32) (c : Fin 64) :
    (Screen.cells fb)[64 * r.val + c.val]? = some (Screen.lit fb r c) := by
  have hrow : (64 * r.val + c.val) / 64 = r.val := by omega
  have hcol : (64 * r.val + c.val) % 64 = c.val := by omega
  have hlt : 64 * r.val + c.val < 32 * 64 := by omega
  rw [Screen.cells_eq_flatten, Vector.getElem?_toList, Vector.getElem?_eq_getElem hlt, Vector.getElem_flatten]
  simp only [hrow, hcol, Screen.lit]

/-- Settles O50: STEP that completes returns the cells in row-major order, and one that faults enters the fault. -/
theorem stepReturnsTheFramebufferOrFails : Obligations.StepReturnsTheFramebufferOrFails := by
  unfold Obligations.StepReturnsTheFramebufferOrFails
  exact fun s hf => ⟨fun t ht => ⟨_, command_step_of_next hf ht, Screen.cells_length _, Screen.cells_getElem? _⟩,
    fun f hfault => ⟨_, command_step_of_fault hf hfault, s.enterFault_fault f⟩⟩

/-! ### TICK -/

theorem State.tick_DT_toNat (s : State) : s.tick.DT.toNat = s.DT.toNat - 1 := countdown_toNat s.DT

theorem State.tick_ST_toNat (s : State) : s.tick.ST.toNat = s.ST.toNat - 1 := countdown_toNat s.ST

/-- Settles O51: each timer's countdown as a number, and the frame of the two timer writes. -/
theorem tickCountsDownAndBeepsAtOne : Obligations.TickCountsDownAndBeepsAtOne := by
  unfold Obligations.TickCountsDownAndBeepsAtOne
  exact fun s hf => ⟨_, command_tick hf, s.tick_DT_toNat, s.tick_ST_toNat,
    (Frame.setDT s _ rfl).trans (.setST _ _ rfl)⟩

end Sys2Proof.Machine
end

section
/-! PROOF. Runs of commands: the invariant is kept by each command (O14) and so along every run, in which every command is
answered (O15); the beeps of a run of TICKs (O52); a run on a faulted core (O53). -/

namespace Sys2Proof.Machine

/-! ### What a command can do -/

/-- What command `c` on state `s` can leave and return (R222 to R230): a running core does what the command says, or
faults; a faulted one is reset, or gives its record again. -/
inductive CommandResult (s : State) : Command → State × Output → Prop
  | reset : CommandResult s .reset (s.afterReset, .done)
  | loaded {image : List Byte} (hfits : image.length ≤ 3584) :
      CommandResult s (.load image) (s.storeBytes 0x200 image, .done)
  | latched (k : Key) (pressed : Bool) : CommandResult s (.setKey k pressed) (s.setKey k pressed, .done)
  | stepped {t : State} (ht : step s = .next t) : CommandResult s .step (t, .frame (Screen.cells t.fb))
  | ticked : CommandResult s .tick (s.tick, .beep s.beep)
  | faulted (c : Command) (f : Fault) : CommandResult s c (s.enterFault f, .failure f)
  | faultedBefore (c : Command) {f : Fault} (hf : s.fault = some f) : CommandResult s c (s, .failure f)

theorem command_result (c : Command) (s : State) : CommandResult s c (command c s) := by
  by_cases hc : c = .reset
  · rw [hc, command_reset]
    exact .reset
  cases hf : s.fault with
  | some f =>
    rw [command_of_faulted_of_ne_reset hf hc]
    exact .faultedBefore c hf
  | none =>
    cases c with
    | reset => exact absurd rfl hc
    | load image =>
      rcases Nat.lt_or_ge 3584 image.length with hlong | hfits
      · rw [command_load_of_beyond hf hlong]
        exact .faulted _ _
      · rw [command_load_of_fits hf hfits]
        exact .loaded hfits
    | setKey k pressed =>
      rw [command_setKey hf]
      exact .latched k pressed
    | step =>
      rcases step_completes_or_faults s with ⟨t, ht⟩ | ⟨f, hfault⟩
      · rw [command_step_of_next hf ht]
        exact .stepped ht
      · rw [command_step_of_fault hf hfault]
        exact .faulted _ f
    | tick =>
      rw [command_tick hf]
      exact .ticked

/-- Every command is answered (R229). -/
theorem command_ne_unmodelled (c : Command) (s : State) (r : Refusal) : (command c s).2 ≠ .unmodelled r := by
  have hresult := command_result c s
  generalize command c s = result at hresult ⊢
  cases hresult <;> nofun

/-! ### The invariant -/

theorem State.afterReset_inv (s : State) : s.afterReset.Inv :=
  ⟨Memory.wf_nil _, Nat.zero_le 16, fun _ => ⟨show 0x200 ≤ 0x10FE by decide, nofun⟩⟩

/-- Bytes stored inside memory change none of what the invariant says of the stack and of `pc`. -/
theorem State.storeBytes_inv {s : State} (hs : s.Inv) {a : Nat} {bs : List Byte} (h : a + bs.length ≤ 4096) :
    (s.storeBytes a bs).Inv := by
  obtain ⟨hmem, hstack, hpc⟩ := hs
  have hstored := s.storeBytes_canonical a bs h hmem
  rw [State.storeBytes_eq] at hstored ⊢
  exact ⟨hstored, hstack, hpc⟩

/-- The invariant says nothing of the key latches (R30) or of the timers (R27). -/
theorem State.setKey_inv {s : State} (hs : s.Inv) (k : Key) (pressed : Bool) : (s.setKey k pressed).Inv := hs

theorem State.tick_inv {s : State} (hs : s.Inv) : s.tick.Inv := hs

/-- Settles O14: each result a command can have meets the invariant if the state before it does. -/
theorem commandKeepsTheInvariant : Obligations.CommandKeepsTheInvariant := by
  unfold Obligations.CommandKeepsTheInvariant
  intro c s hs
  have hresult := command_result c s
  generalize command c s = result at hresult ⊢
  cases hresult with
  | reset => exact s.afterReset_inv
  | loaded hfits => exact State.storeBytes_inv hs (by omega)
  | latched k pressed => exact State.setKey_inv hs k pressed
  | stepped ht =>
    obtain ⟨hkept, -⟩ := stepKeepsTheInvariant s _ hs ht
    exact hkept
  | ticked => exact State.tick_inv hs
  | faulted _ f => exact s.enterFault_inv f
  | faultedBefore => exact hs

/-! ### Every run from reset -/

theorem runCommands_cons (c : Command) (cs : List Command) (s : State) :
    runCommands (c :: cs) s =
      ((runCommands cs (command c s).1).1, (command c s).2 :: (runCommands cs (command c s).1).2) := rfl

/-- What every command keeps holds at the end of a run that begins with it. -/
theorem runCommands_keeps {P : State → Prop} (hkeep : ∀ c s, P s → P (command c s).1) (cs : List Command) {s : State}
    (hs : P s) : P (runCommands cs s).1 := by
  induction cs generalizing s with
  | nil => exact hs
  | cons c cs ih => exact ih (hkeep c s hs)

/-- What a run returns, one of its commands returned. -/
theorem exists_command_of_mem_runCommands {cs : List Command} {s : State} {o : Output} (h : o ∈ (runCommands cs s).2) :
    ∃ c u, (command c u).2 = o := by
  induction cs generalizing s with
  | nil => cases h
  | cons c cs ih =>
    rcases List.mem_cons.1 h with rfl | hrest
    · exact ⟨c, s, rfl⟩
    · exact ih hrest

/-- Settles O15: the invariant holds at reset and every command keeps it, and every command is answered. -/
theorem everyScheduleKeepsTheInvariant : Obligations.EveryScheduleKeepsTheInvariant := by
  unfold Obligations.EveryScheduleKeepsTheInvariant
  refine fun cs => ⟨runCommands_keeps commandKeepsTheInvariant cs resetStateMeetsTheInvariant, fun r hr => ?_⟩
  obtain ⟨c, u, hcu⟩ := exists_command_of_mem_runCommands hr
  exact command_ne_unmodelled c u r hcu

/-! ### A run of TICKs -/

/-- The beep of a TICK, as the number the sound timer held (R228). -/
theorem State.beep_eq (s : State) : s.beep = decide (0 + 1 = s.ST.toNat) := by
  rw [State.beep, beq_eq_decide, decide_eq_decide, ← BitVec.toNat_inj, eq_comm]
  rfl

/-- After a first TICK, the `k`-th beep to come is the `k + 1`-th of the run. -/
theorem beep_after_tick (s : State) (k : Nat) :
    Output.beep (decide (k + 1 = s.tick.ST.toNat)) = Output.beep (decide (k + 1 + 1 = s.ST.toNat)) := by
  rw [State.tick_ST_toNat, Output.beep.injEq, decide_eq_decide]
  omega

/-- Settles O52: by induction on the number of TICKs; each takes 1 off the numbers that the rest of the run begins with. -/
theorem beepSoundsAtTheTickThatEndsTheSoundTimerOnly : Obligations.BeepSoundsAtTheTickThatEndsTheSoundTimerOnly := by
  unfold Obligations.BeepSoundsAtTheTickThatEndsTheSoundTimerOnly
  intro n
  induction n with
  | zero => exact fun s _ => ⟨rfl, rfl, rfl⟩
  | succ n ih =>
    intro s hf
    obtain ⟨hbeeps, hDT, hST⟩ := ih s.tick hf
    rw [List.replicate_succ, runCommands_cons, command_tick hf]
    refine ⟨?_, ?_, ?_⟩
    · rw [hbeeps, List.range_succ_eq_map, List.map_cons, List.map_map, s.beep_eq]
      exact congrArg (_ :: ·) (List.map_congr_left fun k _ => beep_after_tick s k)
    · rw [hDT, s.tick_DT_toNat, Nat.sub_sub, Nat.add_comm]
    · rw [hST, s.tick_ST_toNat, Nat.sub_sub, Nat.add_comm]

/-! ### A run on a faulted core -/

/-- Settles O53: by induction on the commands; none of them moves the faulted core, so the rest begins where it began. -/
theorem faultedCoreStaysFaultedUntilReset : Obligations.FaultedCoreStaysFaultedUntilReset := by
  unfold Obligations.FaultedCoreStaysFaultedUntilReset
  intro cs s f hf hreset
  refine ⟨?_, by rw [command_reset]; rfl⟩
  induction cs with
  | nil => rfl
  | cons c cs ih =>
    obtain ⟨hc, hcs⟩ := not_or.1 (mt List.mem_cons.2 hreset)
    rw [runCommands_cons, command_of_faulted_of_ne_reset hf (Ne.symm hc), ih hcs]
    rfl

end Sys2Proof.Machine
end

section
/-! PROOF. Faults (60_exceptions.md): when an instruction faults and with which cause (O11), what the record of a STEP's fault
names (O8), and that a core with a record executes nothing (O9). -/

namespace Sys2Proof.Machine

/-! ### When an instruction faults -/

/-- `Raises s i cause`: the instruction `i` faults with that cause on the state `s` its fetch left (R241). One constructor for
each of the eight instructions that can fault. -/
inductive Raises (s : State) : Instr → (Word → Word → Fault) → Prop
  | call (nnn : Addr12) (hfull : s.sp ≥ 16) : Raises s (.call nnn) .stackOverflow
  | ret (hempty : s.sp = 0) : Raises s .ret .stackUnderflow
  | drw (x y : Reg) {n : Nibble} (hrows : n.toNat ≥ 1) (hbeyond : s.I.toNat + n.toNat - 1 ≥ 4096) :
      Raises s (.drw x y n) .outOfRange
  | ldB (x : Reg) (hbeyond : s.I.toNat + 2 ≥ 4096) : Raises s (.ldB x) .outOfRange
  | storeRegs (x : Reg) (hbeyond : s.I.toNat + x.val ≥ 4096) : Raises s (.storeRegs x) .outOfRange
  | loadRegs (x : Reg) (hbeyond : s.I.toNat + x.val ≥ 4096) : Raises s (.loadRegs x) .outOfRange
  | skp (x : Reg) (hnokey : (s.reg x).toNat ≥ 16) : Raises s (.skp x) .outOfRange
  | sknp (x : Reg) (hnokey : (s.reg x).toNat ≥ 16) : Raises s (.sknp x) .outOfRange

/-- Every cause an instruction raises makes a record that holds the address and the word given to it (R242). -/
theorem Raises.record {s : State} {i : Instr} {cause : Word → Word → Fault} (h : Raises s i cause) (fpc fiw : Word) :
    (cause fpc fiw).fpc = fpc ∧ (cause fpc fiw).fiw = fiw := by
  cases h <;> exact ⟨rfl, rfl⟩

/-- Each of the eight ends in the fault with its cause, the address it was fetched from and its word (R242). -/
theorem Raises.exec_eq {s : State} {i : Instr} {cause : Word → Word → Fault} (h : Raises s i cause) :
    exec i s = .fault (cause (s.pc - 2) (encode i)) := by
  cases h with
  | call nnn hfull => exact exec_call_of_full nnn hfull
  | ret hempty => exact exec_ret_of_empty (List.length_eq_zero_iff.1 hempty)
  | drw x y hrows hbeyond => exact exec_drw_of_beyond x y (by rintro rfl; contradiction) hbeyond
  | ldB x hbeyond => exact exec_ldB_of_beyond x hbeyond
  | storeRegs x hbeyond => exact exec_storeRegs_of_beyond hbeyond
  | loadRegs x hbeyond => exact exec_loadRegs_of_beyond hbeyond
  | skp x hnokey => exact exec_skp_of_beyond hnokey
  | sknp x hnokey => exact exec_sknp_of_beyond hnokey

/-- A value below 16 is the number of a key (R200). -/
theorem exists_keyOf_of_lt {v : Byte} (h : v.toNat < 16) : ∃ k, keyOf v = some k :=
  ⟨⟨v.toNat, h⟩, (keyOf_eq_some_iff v _).2 rfl⟩

/-- An instruction that does not fault completes; 26 of the 34 always do (R241). -/
theorem raises_or_exec_eq_next (i : Instr) (s : State) :
    (∃ cause, Raises s i cause) ∨ ∃ t, exec i s = .next t := by
  cases i with
  | call nnn =>
    rcases Nat.lt_or_ge s.sp 16 with hfree | hfull
    · obtain ⟨t, ht, -⟩ := exec_call_of_lt nnn hfree
      exact .inr ⟨t, ht⟩
    · exact .inl ⟨_, .call nnn hfull⟩
  | ret =>
    rcases List.eq_nil_or_concat s.stack with hempty | ⟨older, a, hpending⟩
    · exact .inl ⟨_, .ret (List.length_eq_zero_iff.2 hempty)⟩
    · obtain ⟨t, ht, -⟩ := exec_ret_of_pending (hpending.trans List.concat_eq_append)
      exact .inr ⟨t, ht⟩
  | drw x y n =>
    by_cases hin : inMemory (s.dataAddr 0) n.toNat = true
    · exact .inr (exec_drw_of_inMemory hin)
    · rw [inMemory_iff, State.dataAddr] at hin
      exact .inl ⟨_, .drw x y (by omega) (by omega)⟩
  | ldB x =>
    rcases Nat.lt_or_ge (s.I.toNat + 2) 4096 with hin | hbeyond
    · obtain ⟨t, ht, -⟩ := exec_ldB_of_le x (Nat.le_of_lt_succ hin)
      exact .inr ⟨t, ht⟩
    · exact .inl ⟨_, .ldB x hbeyond⟩
  | storeRegs x =>
    rcases Nat.lt_or_ge (s.I.toNat + x.val) 4096 with hin | hbeyond
    · obtain ⟨t, ht, -⟩ := exec_storeRegs_of_le (Nat.le_of_lt_succ hin)
      exact .inr ⟨t, ht⟩
    · exact .inl ⟨_, .storeRegs x hbeyond⟩
  | loadRegs x =>
    rcases Nat.lt_or_ge (s.I.toNat + x.val) 4096 with hin | hbeyond
    · obtain ⟨t, ht, -⟩ := exec_loadRegs_of_le (Nat.le_of_lt_succ hin)
      exact .inr ⟨t, ht⟩
    · exact .inl ⟨_, .loadRegs x hbeyond⟩
  | skp x =>
    rcases Nat.lt_or_ge (s.reg x).toNat 16 with hkey | hnokey
    · obtain ⟨k, hk⟩ := exists_keyOf_of_lt hkey
      exact .inr ⟨_, (exec_skp_eq_next_iff x s _).2 ⟨k, hk, rfl⟩⟩
    · exact .inl ⟨_, .skp x hnokey⟩
  | sknp x =>
    rcases Nat.lt_or_ge (s.reg x).toNat 16 with hkey | hnokey
    · obtain ⟨k, hk⟩ := exists_keyOf_of_lt hkey
      exact .inr ⟨_, (exec_sknp_eq_next_iff x s _).2 ⟨k, hk, rfl⟩⟩
    · exact .inl ⟨_, .sknp x hnokey⟩
  | ldVxK x =>
    cases hscan : s.scanKeys with
    | none => exact .inr ⟨_, (exec_ldVxK_eq_next_iff x s _).2 (.inr ⟨hscan, rfl⟩)⟩
    | some k => exact .inr ⟨_, (exec_ldVxK_eq_next_iff x s _).2 (.inl ⟨k, hscan, rfl⟩)⟩
  | _ => exact .inr ⟨_, rfl⟩

/-- The faults of an instruction, exactly: its cause, with the address and the word of the instruction (R241, R242). -/
theorem exec_eq_fault_iff (i : Instr) (s : State) (f : Fault) :
    exec i s = .fault f ↔ ∃ cause, Raises s i cause ∧ f = cause (s.pc - 2) (encode i) := by
  constructor
  · intro h
    rcases raises_or_exec_eq_next i s with ⟨cause, hraises⟩ | ⟨t, ht⟩
    · exact ⟨cause, hraises, Host.Outcome.fault.inj (h.symm.trans hraises.exec_eq)⟩
    · exact nomatch ht.symm.trans h
  · rintro ⟨cause, hraises, rfl⟩
    exact hraises.exec_eq

/-- Settles O11: each cause and each condition is that of a constructor of `Raises`. -/
theorem instructionFaultsExactlyWhenTheSpecSays : Obligations.InstructionFaultsExactlyWhenTheSpecSays := by
  unfold Obligations.InstructionFaultsExactlyWhenTheSpecSays
  refine fun i s => ⟨fun f hexec => ?_, fun ⟨f, hexec⟩ => ?_, fun hcondition => ?_⟩
  · obtain ⟨cause, hraises, rfl⟩ := (exec_eq_fault_iff i s f).1 hexec
    cases hraises with
    | call nnn => exact .inl ⟨rfl, nnn, rfl⟩
    | ret => exact .inr (.inl ⟨rfl, rfl⟩)
    | drw x y => exact .inr (.inr ⟨rfl, .inl ⟨x, y, _, rfl⟩⟩)
    | ldB x | storeRegs x | loadRegs x | skp x | sknp x => exact .inr (.inr ⟨rfl, .inr ⟨x, by simp⟩⟩)
  · obtain ⟨cause, hraises, -⟩ := (exec_eq_fault_iff i s f).1 hexec
    cases hraises with
    | drw x y hrows hbeyond => exact ⟨hrows, hbeyond⟩
    | call _ h | ret h | ldB _ h | storeRegs _ h | loadRegs _ h | skp _ h | sknp _ h => exact h
  · cases i with
    | call nnn => exact ⟨_, (Raises.call nnn hcondition).exec_eq⟩
    | ret => exact ⟨_, (Raises.ret hcondition).exec_eq⟩
    | drw x y n => exact ⟨_, (Raises.drw x y hcondition.1 hcondition.2).exec_eq⟩
    | ldB x => exact ⟨_, (Raises.ldB x hcondition).exec_eq⟩
    | storeRegs x => exact ⟨_, (Raises.storeRegs x hcondition).exec_eq⟩
    | loadRegs x => exact ⟨_, (Raises.loadRegs x hcondition).exec_eq⟩
    | skp x => exact ⟨_, (Raises.skp x hcondition).exec_eq⟩
    | sknp x => exact ⟨_, (Raises.sknp x hcondition).exec_eq⟩
    | _ => exact hcondition.elim

/-! ### The fault of a STEP -/

/-- A STEP that faults on a running core found no instruction, or its instruction faulted (R117, R242). -/
theorem step_eq_fault {s : State} {f : Fault} (hrunning : s.fault = none) (h : step s = .fault f) :
    s.nextInstr = .error f ∨ ∃ i, s.nextInstr = .ok i ∧ exec i s.advance = .fault f := by
  cases hi : s.nextInstr with
  | error g =>
    rw [step_of_no_instr hrunning hi] at h
    cases h
    exact .inl rfl
  | ok i => exact .inr ⟨i, rfl, (step_of_instr hrunning hi).symm.trans h⟩

/-- Settles O8: a fault of the fetch or of dispatch records `pc` as it is; one of an instruction records the advanced `pc`
less 2, and the encoding of the instruction, which is the fetched word because decoding drops no bit. -/
theorem faultRecordNamesTheFaultingInstruction : Obligations.FaultRecordNamesTheFaultingInstruction := by
  unfold Obligations.FaultRecordNamesTheFaultingInstruction
  intro s f hrunning hstep
  rcases step_eq_fault hrunning hstep with hnone | ⟨i, hnext, hexec⟩
  · rcases (s.nextInstr_error_iff f).1 hnone with ⟨hfetch, rfl⟩ | ⟨iw, -, hfetch, -, rfl⟩
    · exact ⟨rfl, .inl ⟨hfetch, rfl⟩⟩
    · exact ⟨rfl, .inr ⟨iw, hfetch, rfl⟩⟩
  · obtain ⟨iw, hfetch, hdecode⟩ := (s.nextInstr_ok_iff i).1 hnext
    obtain ⟨cause, hraises, rfl⟩ := (exec_eq_fault_iff i s.advance f).1 hexec
    obtain ⟨hfpc, hfiw⟩ := hraises.record (s.advance.pc - 2) (encode i)
    have hback : s.advance.pc - 2 = s.pc := BitVec.add_sub_cancel s.pc 2
    have hword : encode i = iw := decodedWordIsReencodedExactly iw i hdecode
    exact ⟨hfpc.trans hback, .inr ⟨iw, hfetch, hfiw.trans hword⟩⟩

/-- Settles O9: a STEP of a faulted core is its record, so it does not complete. -/
theorem faultedCoreExecutesNothing : Obligations.FaultedCoreExecutesNothing := by
  unfold Obligations.FaultedCoreExecutesNothing
  intro s f hfault
  have hstep : step s = .fault f := step_of_faulted hfault
  exact ⟨fun ⟨_, hnext⟩ => (nomatch hstep.symm.trans hnext), hstep⟩

end Sys2Proof.Machine
end
